-- ==== Sys2Proof/Word.lean ====
section
/-! DEFINITION. The three widths of the block's values (spec/00_scope.md R7). -/

namespace Sys2Proof

/-- `u8` of R7: a byte on the wire, a unit ID, a CSR number. -/
abbrev Byte := BitVec 8

/-- `u16` of R7: a register value, a register address, a transaction ID. -/
abbrev Half := BitVec 16

/-- `u32` of R7: a command-port word, a counter, a typed value. -/
abbrev Word := BitVec 32

end Sys2Proof
end

