-- ==== Sys2Proof/Syntax.lean ====
section
/-! DEFINITION. The instructions of the block: one constructor per row of spec/opcode_table.json, the 23 commands of the
command port and the 5 wire frames (log 4). -/

namespace Sys2Proof

/-- How a register sequence is read (R25). -/
inductive View where
  | raw | u16 | u32 | i32 | f32
deriving DecidableEq, Repr

/-- The two function codes of a request (R24 `fc`, R82): 0x03 and 0x10. -/
inductive FunCode where
  | readHolding | writeMultiple
deriving DecidableEq, Repr

/-- One constructor per row of spec/opcode_table.json. Operands are those of R78; the reserved fields of R79 are no operands. -/
inductive Instr where
  /-- ENC_READ addr, count (R110) -/
  | encRead (addr count : Half)
  /-- ENC_WRITE addr, N, [v0, ..., v(N-1)] (R111); the count field N is the length of `values` -/
  | encWrite (addr : Half) (values : List Half)
  /-- READ_U16 addr (R160) -/
  | readU16 (addr : Half)
  /-- READ_U32 addr (R161) -/
  | readU32 (addr : Half)
  /-- READ_I32 addr (R162) -/
  | readI32 (addr : Half)
  /-- READ_F32 addr (R163) -/
  | readF32 (addr : Half)
  /-- WRITE_U16 addr, v16 (R164) -/
  | writeU16 (addr value : Half)
  /-- WRITE_U32 addr, v32 (R165) -/
  | writeU32 (addr : Half) (value : Word)
  /-- WRITE_I32 addr, v32, the two's-complement pattern (R166) -/
  | writeI32 (addr : Half) (value : Word)
  /-- WRITE_F32 addr, v32, the IEEE-754 pattern (R167) -/
  | writeF32 (addr : Half) (value : Word)
  /-- COMPOSE_U16 [w0, ...] (R170); the count field n is the length of `words` -/
  | composeU16 (words : List Half)
  /-- COMPOSE_U32 [w0, ...] (R171) -/
  | composeU32 (words : List Half)
  /-- COMPOSE_I32 [w0, ...] (R172) -/
  | composeI32 (words : List Half)
  /-- COMPOSE_F32 [w0, ...] (R173) -/
  | composeF32 (words : List Half)
  /-- DECOMPOSE_U16 v16 (R174) -/
  | decomposeU16 (value : Half)
  /-- DECOMPOSE_U32 v32 (R175) -/
  | decomposeU32 (value : Word)
  /-- DECOMPOSE_I32 v32 (R176) -/
  | decomposeI32 (value : Word)
  /-- DECOMPOSE_F32 v32 (R177) -/
  | decomposeF32 (value : Word)
  /-- SET_UNIT unit (R180) -/
  | setUnit (unit : Byte)
  /-- RESET_COUNTERS (R181) -/
  | resetCounters
  /-- CSR_READ csr (R182) -/
  | csrRead (csr : Byte)
  /-- EXPIRE tid (R183) -/
  | expire (tid : Half)
  /-- LINK_LOST (R184) -/
  | linkLost
  /-- The request frame of function code 0x03 on TX (R73) -/
  | reqReadHolding (tid : Half) (unit : Byte) (addr count : Half)
  /-- The request frame of function code 0x10 on TX (R74); N is the length of `values` -/
  | reqWriteMultiple (tid : Half) (unit : Byte) (addr : Half) (values : List Half)
  /-- The read response frame on RX (R75); `data` are the BC bytes after the byte count, an odd BC included (log 11) -/
  | rspReadHolding (tid : Half) (unit : Byte) (data : List Byte)
  /-- The write response frame on RX (R76) -/
  | rspWriteMultiple (tid : Half) (unit : Byte) (echoAddr echoCount : Half)
  /-- The exception response frame on RX (R77); `fc7` are the low 7 bits of its function code -/
  | rspException (tid : Half) (unit : Byte) (fc7 : BitVec 7) (code : Byte)
deriving DecidableEq, Repr

/-- The port on which an instruction stands, the table's "port" column. -/
inductive Port where
  | cmd | tx | rx
deriving DecidableEq, Repr

def Instr.port : Instr → Port
  | .encRead _ _ | .encWrite _ _ => .cmd
  | .readU16 _ | .readU32 _ | .readI32 _ | .readF32 _ => .cmd
  | .writeU16 _ _ | .writeU32 _ _ | .writeI32 _ _ | .writeF32 _ _ => .cmd
  | .composeU16 _ | .composeU32 _ | .composeI32 _ | .composeF32 _ => .cmd
  | .decomposeU16 _ | .decomposeU32 _ | .decomposeI32 _ | .decomposeF32 _ => .cmd
  | .setUnit _ | .resetCounters | .csrRead _ | .expire _ | .linkLost => .cmd
  | .reqReadHolding _ _ _ _ | .reqWriteMultiple _ _ _ _ => .tx
  | .rspReadHolding _ _ _ | .rspWriteMultiple _ _ _ _ | .rspException _ _ _ _ => .rx

end Sys2Proof
end

