-- ==== Sys2Proof/Config.lean ====
section
/-! DEFINITION. The implementation parameters of spec/00_scope.md R6, and the one free value of the model. -/

namespace Sys2Proof

/-- The two OPEN parameters of R6. A `Config` stands in `State.cfg`, no step changes it, and so every claim about every
state quantifies over it, as R6 asks (log 1). -/
structure Config where
  /-- TID_RESET: the value of NEXT_TID after reset (R22). -/
  tidReset : Half
  /-- MAX_PENDING − 1, as bits [31:16] of CSR 0x08 show it (R33): any value gives a MAX_PENDING in R6's range 1..65536. -/
  pendingTop : Half
deriving DecidableEq, Repr

/-- MAX_PENDING, the capacity of the pending table, 1..65536 (R6). -/
def Config.maxPending (c : Config) : Nat := c.pendingTop.toNat + 1

/-- The largest register count of one 0x03 request (R6; the spec marks the value as its own, log 13). -/
def Config.maxRead : Nat := 125

/-- The largest register count of one 0x10 request (R6; log 13). -/
def Config.maxWrite : Nat := 123

/-- The largest MBAP length field the decoder accepts (R6; log 13). -/
def Config.maxLen : Nat := 254

/-- The capacity of the receive buffer, 6 + MAX_LEN (R6, R134). -/
def Config.rxBufBytes : Nat := 6 + Config.maxLen

/-- FREE VALUE (log 8, DESIGN CHOICE). R150 gives ViewValue only "for a word list W of the length the view needs"; what it is
for a shorter or a longer list is this constant, of which nothing can be proved. No run from reset reads it. -/
opaque Config.viewUnstated : View → List Half → Word

end Sys2Proof
end

