-- ==== Sys2Proof/Machine/State.lean ====
section
/-! DEFINITION. The state of the block (spec/10_state.md), its records (spec/30_encoding.md R80, R81), its reset (R36) and the
reasons a step can stop. -/

namespace Sys2Proof.Machine

/-- The status codes of R200 that the block produces, under the spec's names; `Status.code` gives their numbers. -/
inductive Status where
  | ok
  | invalidFunction | invalidAddress | invalidValue | serverFailure | ack | serverBusy | nack | memoryParity | notDefined
  | gatewayPathUnavailable | noResponse | invalidExceptionCode
  | timeout | connectionLost | deviceIDNotSet | unexpectedRegisterCount | invalidData | badServer | dataOverflow
  | illegalCommand | pendingFull | noEntry
deriving DecidableEq, Repr

/-- UNIT (R23): the active unit ID, with the valid bit that stands for the "unset" state. -/
structure UnitReg where
  valid : Bool
  id    : Byte
deriving DecidableEq, Repr

/-- An entry of the pending table (R24). -/
structure Entry where
  tid   : Half
  unit  : Byte
  fc    : FunCode
  addr  : Half
  count : Half
  view  : View
  wvals : List Half
deriving DecidableEq, Repr

/-- DEC (R27). DISPATCHED is entered and left inside one receive step. -/
inductive DecState where
  | awaitHeader | awaitBody | dispatched
deriving DecidableEq, Repr

/-- The result record of a command (R80). "Fields a command does not set are 0": the defaults. -/
structure Result where
  status : Status
  tid    : Half := 0
  value  : Word := 0
  words  : List Half := []
deriving DecidableEq, Repr

/-- The completion record of a pending entry (R81). -/
structure Completion where
  tid       : Half
  status    : Status
  exc       : Byte
  unit      : Byte
  fc        : FunCode
  view      : View
  addr      : Half
  count     : Half
  value     : Word
  echoAddr  : Half
  echoCount : Half
  words     : List Half
deriving DecidableEq, Repr

/-- One thing the block appends to an output port: `Emit`, `Result` and `Complete` of R10. -/
inductive Output where
  /-- a whole frame on TX, "in one piece" -/
  | tx (frame : List Byte)
  /-- a result on RES -/
  | res (r : Result)
  /-- a completion on CPL -/
  | cpl (k : Completion)
deriving DecidableEq, Repr

/-- Which input the environment moves next (R13, R230; log 2): a command on CMD, a byte on RX, a reset event. -/
inductive Turn where
  | cmd | rx | reset
deriving DecidableEq, Repr

/-- The state. `nextTid` to `unmatched` are the record S of R20; `out` holds what has been appended to the three output ports,
in order (R35; log 6); `cmdIn`, `rxIn` and `turns` are the inputs that wait (R35; log 2); `cfg` is the configuration of R6,
which no step changes (log 1). -/
structure State where
  cfg         : Config
  nextTid     : Half
  unit        : UnitReg
  pend        : List Entry
  rxBuf       : List Byte
  dec         : DecState
  txBytes     : Word
  rxBytes     : Word
  frameErrors : Word
  unmatched   : Word
  out         : List Output
  cmdIn       : List Word
  rxIn        : List Byte
  turns       : List Turn
deriving DecidableEq, Repr

/-- Why the machine stops. Only the receive step raises these, and only in decoder states that the spec excludes (R27, R123,
R125); no run from reset reaches one. All are safe: the machine stops (log 5). -/
inductive Fault where
  /-- Raised by the receive step: DEC is DISPATCHED between steps, which R27 excludes. Safe. -/
  | dispatchedBetweenSteps
  /-- Raised by the receive step: DEC is AWAIT_BODY and RXBUF has no 8 bytes even with the new one, which R27 excludes. Safe. -/
  | bodyWithoutHeader
  /-- Raised by the receive step: RXBUF is as long as its length field says and is no response frame, which the checks of R123
  and R125 exclude. Safe. -/
  | completeButUnframed
deriving DecidableEq, Repr

/-- Why an instruction has no meaning. -/
inductive Refusal where
  /-- Raised by `exec` for an instruction that has no meaning yet, under its mnemonic. Safe. -/
  | notModelled (mnemonic : String)
deriving DecidableEq, Repr

/-- The reset values of R36, for a configuration. -/
def State.resetWith (c : Config) : State where
  cfg := c
  nextTid := c.tidReset
  unit := { valid := false, id := 0 }
  pend := []
  rxBuf := []
  dec := .awaitHeader
  txBytes := 0
  rxBytes := 0
  frameErrors := 0
  unmatched := 0
  out := []
  cmdIn := []
  rxIn := []
  turns := []

/-- The state right after reset, under the configuration that the test vectors of spec/95_test_vectors.md name: TID_RESET =
0x0000 and MAX_PENDING = 4 (log 1, DESIGN CHOICE: the two parameters are OPEN). -/
def State.reset : State := State.resetWith { tidReset := 0x0000, pendingTop := 3 }

end Sys2Proof.Machine
end

