-- ==== Sys2Proof/Machine/Flags.lean ====
section
/-! DEFINITION. The block "has no status flags, condition codes or predicates" (R32): every outcome is a status code. This file
holds the numbers of those codes and of the other codes that records and CSRs show. -/

namespace Sys2Proof.Machine

/-- The numbers of R200. -/
def Status.code : Status → Byte
  | .ok => 0x00
  | .invalidFunction => 0x01
  | .invalidAddress => 0x02
  | .invalidValue => 0x03
  | .serverFailure => 0x04
  | .ack => 0x05
  | .serverBusy => 0x06
  | .nack => 0x07
  | .memoryParity => 0x08
  | .notDefined => 0x09
  | .gatewayPathUnavailable => 0x0A
  | .noResponse => 0x0B
  | .invalidExceptionCode => 0x0C
  | .timeout => 0x10
  | .connectionLost => 0x11
  | .deviceIDNotSet => 0x12
  | .unexpectedRegisterCount => 0x13
  | .invalidData => 0x14
  | .badServer => 0x15
  | .dataOverflow => 0x16
  | .illegalCommand => 0x20
  | .pendingFull => 0x21
  | .noEntry => 0x22

/-- `ExcKind` of R201, from the exception-code byte of a response. -/
def excKind (x : Byte) : Status :=
  match x.toNat with
  | 1 => .invalidFunction
  | 2 => .invalidAddress
  | 3 => .invalidValue
  | 4 => .serverFailure
  | 5 => .ack
  | 6 => .serverBusy
  | 7 => .nack
  | 8 => .memoryParity
  | 9 => .notDefined
  | 10 => .gatewayPathUnavailable
  | 11 => .noResponse
  | _ => .invalidExceptionCode

/-- The decoder-state numbers of R27, the two bits of CSR 0x02 (R33). -/
def DecState.code : DecState → BitVec 2
  | .awaitHeader => 0
  | .awaitBody => 1
  | .dispatched => 2

end Sys2Proof.Machine

namespace Sys2Proof

/-- The view codes of R25. -/
def View.code : View → Byte
  | .raw => 0
  | .u16 => 1
  | .u32 => 2
  | .i32 => 3
  | .f32 => 4

end Sys2Proof
end

