-- ==== Sys2Proof/WellFormed.lean ====
section
/-! DEFINITION. Which instruction terms stand for something the ports can carry: each count fits its field (R71, R73 to R75). -/

namespace Sys2Proof

/-- A count field of 16 bits (format ACD, R71). -/
def fitsHalf (n : Nat) : Bool := n < 65536

/-- A count field of 8 bits (format NW, R71). -/
def fitsByte (n : Nat) : Bool := n < 256

/-- The register counts of the 0x03 requests that the block emits (R100; log 15). -/
def readCountOk (n : Nat) : Bool := 1 ≤ n && n ≤ Config.maxRead

/-- The register counts of the 0x10 requests that the block emits (R100; log 15). -/
def writeCountOk (n : Nat) : Bool := 1 ≤ n && n ≤ Config.maxWrite

/-- The byte counts a read response can have: 3 + BC ≤ MAX_LEN (R75, R123). -/
def byteCountOk (bc : Nat) : Bool := 3 + bc ≤ Config.maxLen

def Instr.wf : Instr → Bool
  | .encRead _ _ => true
  | .encWrite _ values => fitsHalf values.length
  | .readU16 _ => true
  | .readU32 _ => true
  | .readI32 _ => true
  | .readF32 _ => true
  | .writeU16 _ _ => true
  | .writeU32 _ _ => true
  | .writeI32 _ _ => true
  | .writeF32 _ _ => true
  | .composeU16 words => fitsByte words.length
  | .composeU32 words => fitsByte words.length
  | .composeI32 words => fitsByte words.length
  | .composeF32 words => fitsByte words.length
  | .decomposeU16 _ => true
  | .decomposeU32 _ => true
  | .decomposeI32 _ => true
  | .decomposeF32 _ => true
  | .setUnit _ => true
  | .resetCounters => true
  | .csrRead _ => true
  | .expire _ => true
  | .linkLost => true
  | .reqReadHolding _ _ _ count => readCountOk count.toNat
  | .reqWriteMultiple _ _ _ values => writeCountOk values.length
  | .rspReadHolding _ _ data => byteCountOk data.length
  | .rspWriteMultiple _ _ _ _ => true
  | .rspException _ _ _ _ => true

end Sys2Proof
end

