-- ==== Sys2Proof/Decode.lean ====
section
/-! DEFINITION. Decoding: from the words of the command port and the bytes of a frame to an instruction or a rejection by name
(spec/30_encoding.md); and after it the encoder, from the same tables. -/

namespace Sys2Proof

/-! ## Bytes and words (R7, R8) -/

/-- Bits [31:16]. -/
def hiHalf (w : Word) : Half := w.extractLsb' 16 16

/-- Bits [15:0]. -/
def loHalf (w : Word) : Half := w.extractLsb' 0 16

/-- `be16` of R8: high byte first. -/
def be16 (v : Half) : List Byte := [v.extractLsb' 8 8, v.extractLsb' 0 8]

/-- `u16be` of R8. -/
def u16be (a b : Byte) : Half := a ++ b

/-- The 16-bit values of a byte sequence, two bytes each, high byte first (R50, R75). -/
def wordsOf : List Byte → List Half
  | a :: b :: rest => u16be a b :: wordsOf rest
  | _ => []

/-- The 16-bit values of operand words whose bits [31:16] are 0; none if one has a nonzero reserved bit (R71, R79). -/
def halves : List Word → Option (List Half)
  | [] => some []
  | w :: ws => if hiHalf w = 0 then (halves ws).map (loHalf w :: ·) else none

/-! ## Command words (R70 to R72) -/

/-- OP, CW0[31:24]. -/
def opField (w : Word) : Byte := w.extractLsb' 24 8

/-- SUB, CW0[23:16]. -/
def subField (w : Word) : Byte := w.extractLsb' 16 8

/-- ARG, CW0[15:0]. -/
def argField (w : Word) : Half := w.extractLsb' 0 16

/-- The assigned opcodes of R72, by mnemonic. -/
inductive Opcode where
  | encRead | encWrite
  | readU16 | readU32 | readI32 | readF32
  | writeU16 | writeU32 | writeI32 | writeF32
  | composeU16 | composeU32 | composeI32 | composeF32
  | decomposeU16 | decomposeU32 | decomposeI32 | decomposeF32
  | setUnit | resetCounters | csrRead | expire | linkLost
deriving DecidableEq, Repr

/-- The command formats of R71. -/
inductive Format where
  | A | AC | ACD | AV16 | AV32 | NW | V16 | V32 | U | C | T | N
deriving DecidableEq, Repr

/-- One row of the opcode map of R72. -/
structure OpRow where
  opcode : Opcode
  op     : Byte
  format : Format
deriving DecidableEq, Repr

/-- The opcode map of R72. -/
def Opcode.row : Opcode → OpRow
  | .encRead       => ⟨.encRead,       0x01, .AC⟩
  | .encWrite      => ⟨.encWrite,      0x02, .ACD⟩
  | .readU16       => ⟨.readU16,       0x11, .A⟩
  | .readU32       => ⟨.readU32,       0x12, .A⟩
  | .readI32       => ⟨.readI32,       0x13, .A⟩
  | .readF32       => ⟨.readF32,       0x14, .A⟩
  | .writeU16      => ⟨.writeU16,      0x19, .AV16⟩
  | .writeU32      => ⟨.writeU32,      0x1A, .AV32⟩
  | .writeI32      => ⟨.writeI32,      0x1B, .AV32⟩
  | .writeF32      => ⟨.writeF32,      0x1C, .AV32⟩
  | .composeU16    => ⟨.composeU16,    0x21, .NW⟩
  | .composeU32    => ⟨.composeU32,    0x22, .NW⟩
  | .composeI32    => ⟨.composeI32,    0x23, .NW⟩
  | .composeF32    => ⟨.composeF32,    0x24, .NW⟩
  | .decomposeU16  => ⟨.decomposeU16,  0x29, .V16⟩
  | .decomposeU32  => ⟨.decomposeU32,  0x2A, .V32⟩
  | .decomposeI32  => ⟨.decomposeI32,  0x2B, .V32⟩
  | .decomposeF32  => ⟨.decomposeF32,  0x2C, .V32⟩
  | .setUnit       => ⟨.setUnit,       0x31, .U⟩
  | .resetCounters => ⟨.resetCounters, 0x32, .N⟩
  | .csrRead       => ⟨.csrRead,       0x33, .C⟩
  | .expire        => ⟨.expire,        0x34, .T⟩
  | .linkLost      => ⟨.linkLost,      0x35, .N⟩

def Opcode.op (o : Opcode) : Byte := o.row.op

def Opcode.format (o : Opcode) : Format := o.row.format

/-- The rows of R72 in the table's order. -/
def opcodes : List Opcode :=
  [.encRead, .encWrite, .readU16, .readU32, .readI32, .readF32, .writeU16, .writeU32, .writeI32, .writeF32] ++
  [.composeU16, .composeU32, .composeI32, .composeF32, .decomposeU16, .decomposeU32, .decomposeI32, .decomposeF32] ++
  [.setUnit, .resetCounters, .csrRead, .expire, .linkLost]

/-- The opcode that an OP value is assigned to; none for the unassigned values of R72. -/
def opcodeOf (op : Byte) : Option Opcode := opcodes.find? (fun o => o.op == op)

/-- How many operand words follow CW0 (R71). None: the count is in W1, which has not arrived. -/
def operandCount (o : Opcode) (sub : Byte) (ops : List Word) : Option Nat :=
  match o.format with
  | .A | .U | .C | .T | .N => some 0
  | .AC | .AV16 | .AV32 | .V16 | .V32 => some 1
  | .NW => some sub.toNat
  | .ACD =>
    match ops with
    | [] => none
    | w1 :: _ => some (1 + (loHalf w1).toNat)

/-! ### Operand assembly by format (R71, R78); none where a field the format marks 0 is not 0 (R79) -/

def formA (mk : Half → Instr) (sub : Byte) (arg : Half) : Option Instr :=
  if sub = 0 then some (mk arg) else none

/-- Formats AC and AV16. -/
def formAV16 (mk : Half → Half → Instr) (sub : Byte) (arg : Half) (ops : List Word) : Option Instr :=
  if sub = 0 then
    match halves ops with
    | some [v] => some (mk arg v)
    | _ => none
  else none

def formACD (mk : Half → List Half → Instr) (sub : Byte) (arg : Half) (ops : List Word) : Option Instr :=
  if sub = 0 then
    match halves ops with
    | some (_ :: values) => some (mk arg values)
    | _ => none
  else none

def formAV32 (mk : Half → Word → Instr) (sub : Byte) (arg : Half) (ops : List Word) : Option Instr :=
  if sub = 0 then
    match ops with
    | [v] => some (mk arg v)
    | _ => none
  else none

def formNW (mk : List Half → Instr) (arg : Half) (ops : List Word) : Option Instr :=
  if arg = 0 then (halves ops).map mk else none

def formV16 (mk : Half → Instr) (sub : Byte) (arg : Half) (ops : List Word) : Option Instr :=
  if sub = 0 ∧ arg = 0 then
    match halves ops with
    | some [v] => some (mk v)
    | _ => none
  else none

def formV32 (mk : Word → Instr) (sub : Byte) (arg : Half) (ops : List Word) : Option Instr :=
  if sub = 0 ∧ arg = 0 then
    match ops with
    | [v] => some (mk v)
    | _ => none
  else none

/-- Formats U and C. -/
def formU (mk : Byte → Instr) (sub : Byte) (arg : Half) : Option Instr :=
  if arg = 0 then some (mk sub) else none

def formN (i : Instr) (sub : Byte) (arg : Half) : Option Instr :=
  if sub = 0 ∧ arg = 0 then some i else none

/-- The instruction of an opcode, its SUB and ARG fields and its operand words; none if a reserved field is not 0 (R79). -/
def decodeOperands (o : Opcode) (sub : Byte) (arg : Half) (ops : List Word) : Option Instr :=
  match o with
  | .encRead       => formAV16 .encRead sub arg ops
  | .encWrite      => formACD .encWrite sub arg ops
  | .readU16       => formA .readU16 sub arg
  | .readU32       => formA .readU32 sub arg
  | .readI32       => formA .readI32 sub arg
  | .readF32       => formA .readF32 sub arg
  | .writeU16      => formAV16 .writeU16 sub arg ops
  | .writeU32      => formAV32 .writeU32 sub arg ops
  | .writeI32      => formAV32 .writeI32 sub arg ops
  | .writeF32      => formAV32 .writeF32 sub arg ops
  | .composeU16    => formNW .composeU16 arg ops
  | .composeU32    => formNW .composeU32 arg ops
  | .composeI32    => formNW .composeI32 arg ops
  | .composeF32    => formNW .composeF32 arg ops
  | .decomposeU16  => formV16 .decomposeU16 sub arg ops
  | .decomposeU32  => formV32 .decomposeU32 sub arg ops
  | .decomposeI32  => formV32 .decomposeI32 sub arg ops
  | .decomposeF32  => formV32 .decomposeF32 sub arg ops
  | .setUnit       => formU .setUnit sub arg
  | .resetCounters => formN .resetCounters sub arg
  | .csrRead       => formU .csrRead sub arg
  | .expire        => formA .expire sub arg
  | .linkLost      => formN .linkLost sub arg

/-- Why words or bytes are no instruction. -/
inductive Reject where
  /-- OP is not in R72: a command of one word. -/
  | unassignedOpcode
  /-- A field the format marks 0 is not 0 (R79). -/
  | reservedField
  /-- Fewer than the 8 bytes of a header with its function code (R121). -/
  | shortHeader
  /-- The header check of R123 fails, or its counterpart for a request frame (R73, R74, R104). -/
  | badHeader
  /-- The bytes after the header are not as many as the function code and the length field say (R83). -/
  | badLength
  /-- A request count that the encoder never emits (R100). -/
  | badCount
deriving DecidableEq, Repr

/-- What the command port holds (R70, R71). -/
inductive CmdRead where
  /-- A whole command, and the words after it. -/
  | instr (i : Instr) (rest : List Word)
  /-- An illegal command, with the words after it: "after all its words are consumed" (R79). -/
  | illegal (why : Reject) (rest : List Word)
  /-- Not yet a whole command (R21: "each command is taken whole"). -/
  | incomplete
deriving DecidableEq, Repr

/-- Reads one command from the words waiting on the command port. -/
def decodeCmd : List Word → CmdRead
  | [] => .incomplete
  | cw0 :: ops =>
    match opcodeOf (opField cw0) with
    | none => .illegal .unassignedOpcode ops
    | some o =>
      match operandCount o (subField cw0) ops with
      | none => .incomplete
      | some n =>
        if ops.length < n then .incomplete
        else
          match decodeOperands o (subField cw0) (argField cw0) (ops.take n) with
          | some i => .instr i (ops.drop n)
          | none => .illegal .reservedField (ops.drop n)

/-! ## Frames (R73 to R77, R122, R123) -/

/-- The function-code byte (R82). -/
def FunCode.code : FunCode → Byte
  | .readHolding => 0x03
  | .writeMultiple => 0x10

/-- `HeaderOK` of R123. -/
def headerOK (pid len : Half) (f : Byte) : Bool :=
  if pid ≠ 0 then false
  else if f.msb then len == 3
  else if f = FunCode.writeMultiple.code then len == 6
  else if f = FunCode.readHolding.code then 3 ≤ len.toNat && len.toNat ≤ Config.maxLen
  else false

/-- Reads one whole response frame (R75 to R77): what the block does at a completed frame (R126). -/
def decodeResponse : List Byte → Except Reject Instr
  | t1 :: t0 :: p1 :: p0 :: l1 :: l0 :: u :: f :: body =>
    if headerOK (u16be p1 p0) (u16be l1 l0) f then
      if f.msb then
        match body with
        | [x] => .ok (.rspException (u16be t1 t0) u (f.extractLsb' 0 7) x)
        | _ => .error .badLength
      else if f = FunCode.writeMultiple.code then
        match body with
        | [a1, a0, c1, c0] => .ok (.rspWriteMultiple (u16be t1 t0) u (u16be a1 a0) (u16be c1 c0))
        | _ => .error .badLength
      else
        match body with
        | bc :: data =>
          if data.length = bc.toNat ∧ (u16be l1 l0).toNat = 3 + bc.toNat then .ok (.rspReadHolding (u16be t1 t0) u data)
          else .error .badLength
        | [] => .error .badLength
    else .error .badHeader
  | _ => .error .shortHeader

/-- Reads one whole request frame (R73, R74, R104). The block itself never reads one; the encoder's round trip does. -/
def decodeRequest : List Byte → Except Reject Instr
  | t1 :: t0 :: p1 :: p0 :: l1 :: l0 :: u :: f :: body =>
    if u16be p1 p0 = 0 ∧ (u16be l1 l0).toNat = 2 + body.length then
      if f = FunCode.readHolding.code then
        match body with
        | [a1, a0, c1, c0] =>
          if readCountOk (u16be c1 c0).toNat then .ok (.reqReadHolding (u16be t1 t0) u (u16be a1 a0) (u16be c1 c0))
          else .error .badCount
        | _ => .error .badLength
      else if f = FunCode.writeMultiple.code then
        match body with
        | a1 :: a0 :: c1 :: c0 :: bc :: data =>
          if data.length = bc.toNat ∧ bc.toNat = 2 * (u16be c1 c0).toNat then
            if writeCountOk (u16be c1 c0).toNat then .ok (.reqWriteMultiple (u16be t1 t0) u (u16be a1 a0) (wordsOf data))
            else .error .badCount
          else .error .badLength
        | _ => .error .badLength
      else .error .badHeader
    else .error .badHeader
  | _ => .error .shortHeader

/-- An instruction as its port carries it: words on CMD, bytes on TX and RX. -/
inductive Encoded where
  | cmd (words : List Word)
  | tx (bytes : List Byte)
  | rx (bytes : List Byte)
deriving DecidableEq, Repr

/-- Decoding, total on whatever a port carries: exactly one instruction, or a rejection by name. -/
def decode : Encoded → Except Reject Instr
  | .cmd ws =>
    match decodeCmd ws with
    | .instr i [] => .ok i
    | .instr _ (_ :: _) => .error .badLength
    | .illegal why _ => .error why
    | .incomplete => .error .badLength
  | .tx bs => decodeRequest bs
  | .rx bs => decodeResponse bs

/-! ## The encoder -/

/-- CW0 of R70. -/
def commandWord (o : Opcode) (sub : Byte) (arg : Half) : Word := o.op ++ sub ++ arg

/-- An operand word of a 16-bit value: bits [31:16] are 0 (R71). -/
def halfWord (v : Half) : Word := (0 : Half) ++ v

/-- Format NW (R71). -/
def encodeNW (o : Opcode) (words : List Half) : List Word :=
  commandWord o (BitVec.ofNat 8 words.length) 0 :: words.map halfWord

/-- The 7-byte MBAP header and the PDU (R104): "length covering unit ID + PDU". -/
def frame (tid : Half) (unit : Byte) (pdu : List Byte) : List Byte :=
  be16 tid ++ be16 0 ++ be16 (BitVec.ofNat 16 (1 + pdu.length)) ++ [unit] ++ pdu

/-- `ReadFrame` of R100: the request of R73. -/
def readFrame (tid : Half) (unit : Byte) (addr count : Half) : List Byte :=
  frame tid unit (FunCode.readHolding.code :: (be16 addr ++ be16 count))

/-- `WriteFrame` of R100: the request of R74. -/
def writeFrame (tid : Half) (unit : Byte) (addr : Half) (values : List Half) : List Byte :=
  frame tid unit
    (FunCode.writeMultiple.code ::
      (be16 addr ++ be16 (BitVec.ofNat 16 values.length) ++ [BitVec.ofNat 8 (2 * values.length)] ++ values.flatMap be16))

/-- The response frame of R75. -/
def readResponseFrame (tid : Half) (unit : Byte) (data : List Byte) : List Byte :=
  frame tid unit (FunCode.readHolding.code :: BitVec.ofNat 8 data.length :: data)

/-- The response frame of R76. -/
def writeResponseFrame (tid : Half) (unit : Byte) (echoAddr echoCount : Half) : List Byte :=
  frame tid unit (FunCode.writeMultiple.code :: (be16 echoAddr ++ be16 echoCount))

/-- The response frame of R77: the function code with its high bit set, and the exception code. -/
def exceptionFrame (tid : Half) (unit : Byte) (fc7 : BitVec 7) (code : Byte) : List Byte :=
  frame tid unit [1#1 ++ fc7, code]

/-- The words or bytes of an instruction. -/
def encode : Instr → Encoded
  | .encRead addr count => .cmd [commandWord .encRead 0 addr, halfWord count]
  | .encWrite addr values =>
    .cmd (commandWord .encWrite 0 addr :: halfWord (BitVec.ofNat 16 values.length) :: values.map halfWord)
  | .readU16 addr => .cmd [commandWord .readU16 0 addr]
  | .readU32 addr => .cmd [commandWord .readU32 0 addr]
  | .readI32 addr => .cmd [commandWord .readI32 0 addr]
  | .readF32 addr => .cmd [commandWord .readF32 0 addr]
  | .writeU16 addr value => .cmd [commandWord .writeU16 0 addr, halfWord value]
  | .writeU32 addr value => .cmd [commandWord .writeU32 0 addr, value]
  | .writeI32 addr value => .cmd [commandWord .writeI32 0 addr, value]
  | .writeF32 addr value => .cmd [commandWord .writeF32 0 addr, value]
  | .composeU16 words => .cmd (encodeNW .composeU16 words)
  | .composeU32 words => .cmd (encodeNW .composeU32 words)
  | .composeI32 words => .cmd (encodeNW .composeI32 words)
  | .composeF32 words => .cmd (encodeNW .composeF32 words)
  | .decomposeU16 value => .cmd [commandWord .decomposeU16 0 0, halfWord value]
  | .decomposeU32 value => .cmd [commandWord .decomposeU32 0 0, value]
  | .decomposeI32 value => .cmd [commandWord .decomposeI32 0 0, value]
  | .decomposeF32 value => .cmd [commandWord .decomposeF32 0 0, value]
  | .setUnit unit => .cmd [commandWord .setUnit unit 0]
  | .resetCounters => .cmd [commandWord .resetCounters 0 0]
  | .csrRead csr => .cmd [commandWord .csrRead csr 0]
  | .expire tid => .cmd [commandWord .expire 0 tid]
  | .linkLost => .cmd [commandWord .linkLost 0 0]
  | .reqReadHolding tid unit addr count => .tx (readFrame tid unit addr count)
  | .reqWriteMultiple tid unit addr values => .tx (writeFrame tid unit addr values)
  | .rspReadHolding tid unit data => .rx (readResponseFrame tid unit data)
  | .rspWriteMultiple tid unit echoAddr echoCount => .rx (writeResponseFrame tid unit echoAddr echoCount)
  | .rspException tid unit fc7 code => .rx (exceptionFrame tid unit fc7 code)

/-! ## The opcode table's words (log 9) -/

/-- The command words that start with the bits of `w` and go on with zeros: CW0 is bits [31:0], W1 bits [63:32], and so on;
as many words as the command that CW0 and W1 begin has (R71). -/
def tableCommand (w : Nat) : List Word :=
  let cw0 := BitVec.ofNat 32 w
  let w1 := BitVec.ofNat 32 (w >>> 32)
  let n := match opcodeOf (opField cw0) with
    | none => 0
    | some o => (operandCount o (subField cw0) [w1]).getD 0
  cw0 :: (List.range n).map (fun k => BitVec.ofNat 32 (w >>> (32 * (k + 1))))

/-- The response frame whose byte 7 is `f`, with every operand byte 0 and the length its layout fixes (R75 to R77): the table
gives a frame row only the bits of its function-code byte. -/
def tableResponse (f : Byte) : List Byte :=
  if f = FunCode.writeMultiple.code then [0, 0, 0, 0, 0, 6, 0, f, 0, 0, 0, 0]
  else [0, 0, 0, 0, 0, 3, 0, f, 0]

/-- The instruction the decoder reads from a table row's word. Rows of up to 8 bits are frames, given by byte 7; the block's
decoder reads response frames only, so 0x03 and 0x10 are the RSP rows (log 9). -/
def decodeTableWord (nbits w : Nat) : Option Instr :=
  if nbits ≤ 8 then (decodeResponse (tableResponse (BitVec.ofNat 8 w))).toOption
  else
    match decodeCmd (tableCommand w) with
    | .instr i [] => some i
    | _ => none

end Sys2Proof
end

