-- ==== Sys2Proof/Machine/Operands.lean ====
section
/-! DEFINITION. The register codec's operand forms (spec/43_register_codec.md R150 to R154). -/

namespace Sys2Proof.Machine

/-- The 32-bit pattern of two registers, the first word high (R51, R150). -/
def compose32 (high low : Half) : Word := (high.setWidth 32 <<< 16) ||| low.setWidth 32

/-- `ViewValue` of R150. For a list shorter or longer than the view needs, of which R150 says nothing, the value is free (log 8,
DESIGN CHOICE). -/
def viewValue (view : View) (ws : List Half) : Word :=
  match view, ws with
  | .raw, _ => 0
  | .u16, [w0] => w0.setWidth 32
  | .u32, [w0, w1] => compose32 w0 w1
  | .i32, [w0, w1] => compose32 w0 w1
  | .f32, [w0, w1] => compose32 w0 w1
  | v, other => Config.viewUnstated v other

/-- `Decompose16` of R152. -/
def decompose16 (v : Half) : List Half := [v]

/-- `Decompose32` of R152: the high word first. -/
def decompose32 (v : Word) : List Half := [((v >>> 16) &&& 0xFFFF).setWidth 16, (v &&& 0xFFFF).setWidth 16]

/-- The reading of a 32-bit pattern as an Int32 (R153). No command computes it: it says what a pattern of the I32 view means. -/
def int32Of (v : Word) : Int := if v.msb then (v.toNat : Int) - 2 ^ 32 else v.toNat

/-- The pattern that writing an Int32 sends (R153). -/
def patternOfInt32 (i : Int) : Word := BitVec.ofNat 32 (i % 2 ^ 32).toNat

end Sys2Proof.Machine

namespace Sys2Proof

/-- The number of words a typed view takes (R151). -/
def View.wordCount : View → Option Nat
  | .raw => none
  | .u16 => some 1
  | .u32 => some 2
  | .i32 => some 2
  | .f32 => some 2

end Sys2Proof
end

