-- ==== Sys2Proof/Machine/Ops.lean ====
section
/-! DEFINITION. The operations that the instructions share: the primitives of R10, the pending table, `Admit` (R100) and the
resolution of a response (R127 to R132). -/

namespace Sys2Proof.Machine

/-! ## Output ports (R10, R35) -/

/-- Appends one thing to its output port. -/
def State.put (s : State) (o : Output) : State := { s with out := s.out ++ [o] }

/-- `Complete(k)` of R10. -/
def State.complete (s : State) (k : Completion) : State := s.put (.cpl k)

/-- `Result(k)` of R10. -/
def State.result (s : State) (r : Result) : State := s.put (.res r)

/-- `raise S` of R10: the result is a status and every other field 0 (R80), and nothing else changes. This is all that a failing
command does: there are no traps (R205). -/
def State.raise (s : State) (st : Status) : State := s.result { status := st }

/-- `Emit(f)` and the byte counter (R100, R106): the frame in one piece, TX_BYTES advanced modulo 2^32. -/
def State.transmit (s : State) (f : List Byte) : State :=
  { s.put (.tx f) with txBytes := s.txBytes + BitVec.ofNat 32 f.length }

/-- What one output appends to TX. -/
def Output.bytes : Output → List Byte
  | .tx f => f
  | .res _ | .cpl _ => []

/-- What one output appends to RES. -/
def Output.results : Output → List Result
  | .res r => [r]
  | .tx _ | .cpl _ => []

/-- What one output appends to CPL. -/
def Output.completions : Output → List Completion
  | .cpl k => [k]
  | .tx _ | .res _ => []

/-- The TX byte stream (R35, R61). -/
def State.tx (s : State) : List Byte := s.out.flatMap Output.bytes

/-- The RES port: the results, in order (R35). -/
def State.res (s : State) : List Result := s.out.flatMap Output.results

/-- The CPL port: the completions, in order (R35). -/
def State.cpl (s : State) : List Completion := s.out.flatMap Output.completions

/-! ## The pending table (R24) -/

/-- "the entry e of S.PEND with e.tid = T, or none". -/
def findTid (tid : Half) (pend : List Entry) : Option Entry := pend.find? (fun e => e.tid == tid)

/-- "S.PEND with e removed", for the entry `findTid` gives (log 12). -/
def removeTid (tid : Half) (pend : List Entry) : List Entry := pend.eraseP (fun e => e.tid == tid)

/-- `FailRecord(e, st)` of R132. -/
def failRecord (e : Entry) (st : Status) : Completion where
  tid := e.tid
  status := st
  exc := 0
  unit := e.unit
  fc := e.fc
  view := e.view
  addr := e.addr
  count := e.count
  value := 0
  echoAddr := 0
  echoCount := 0
  words := e.wvals

/-! ## Admit (R100) -/

/-- The register counts a request may have (R100): 1..MAX_READ for 0x03, 1..MAX_WRITE for 0x10. -/
def countAllowed (fc : FunCode) (n : Nat) : Bool :=
  match fc with
  | .readHolding => readCountOk n
  | .writeMultiple => writeCountOk n

/-- The request frame of `Admit` (R100, R73, R74). -/
def requestFrame (fc : FunCode) (tid : Half) (unit : Byte) (addr : Half) (n : Nat) (values : List Half) : List Byte :=
  match fc with
  | .readHolding => readFrame tid unit addr (BitVec.ofNat 16 n)
  | .writeMultiple => writeFrame tid unit addr values

/-- R102: an entry that still holds the allocated transaction ID is removed and completed with Timeout. -/
def State.evict (s : State) (tid : Half) : State :=
  match findTid tid s.pend with
  | none => s
  | some e => { s with pend := removeTid tid s.pend }.complete (failRecord e .timeout)

/-- The state changes of an admitted encode command, in the order of R100: the eviction, the counter, the new entry, the frame,
the result. -/
def State.admitted (s : State) (fc : FunCode) (addr : Half) (n : Nat) (view : View) (values : List Half) : State :=
  let tid := s.nextTid
  let entry : Entry :=
    { tid := tid, unit := s.unit.id, fc := fc, addr := addr, count := BitVec.ofNat 16 n, view := view, wvals := values }
  let s1 := s.evict tid
  let s2 := { s1 with nextTid := tid + 1, pend := s1.pend ++ [entry] }
  (s2.transmit (requestFrame fc tid s.unit.id addr n values)).result { status := .ok, tid := tid }

/-- `Admit(fc, A, N, view, V)` of R100: all checks before any state change, in the order written (the table full: log 18). -/
def State.tryAdmit (s : State) (fc : FunCode) (addr : Half) (n : Nat) (view : View) (values : List Half) : State :=
  if s.unit.valid = false then s.raise .deviceIDNotSet
  else if countAllowed fc n = false then s.raise .dataOverflow
  else if findTid s.nextTid s.pend = none ∧ s.pend.length = s.cfg.maxPending then s.raise .pendingFull
  else s.admitted fc addr n view values

/-! ## Resolution of a response (R127 to R132) -/

/-- What a response frame carries after its header (R75 to R77). -/
inductive Response where
  | read (data : List Byte)
  | write (echoAddr echoCount : Half)
  | exception (fc7 : BitVec 7) (code : Byte)
deriving DecidableEq, Repr

/-- The record `k` with which R128 starts: the entry's context, and the frame's exception code or echoed fields. -/
def startRecord (e : Entry) (r : Response) : Completion :=
  match r with
  | .read _ => failRecord e .ok
  | .write ea ec => { failRecord e .ok with echoAddr := ea, echoCount := ec }
  | .exception _ x => { failRecord e .ok with exc := x }

/-- `ReadOK` of R129. -/
def readOK (e : Entry) (data : List Byte) (k : Completion) : Completion :=
  if data.length ≠ 2 * e.count.toNat then { k with status := .unexpectedRegisterCount }
  else { k with words := wordsOf data, value := viewValue e.view (wordsOf data), status := .ok }

/-- `WriteOK` of R130: the echoed count is compared, the echoed address is not. -/
def writeOK (e : Entry) (echoCount : Half) (k : Completion) : Completion :=
  if echoCount ≠ e.count then { k with status := .unexpectedRegisterCount } else { k with status := .ok }

/-- `Resolve(e, F)` of R128: "the first check that fails decides the status". -/
def resolve (e : Entry) (unit : Byte) (r : Response) : Completion :=
  let k := startRecord e r
  if unit ≠ e.unit then { k with status := .badServer }
  else
    match r with
    | .exception fc7 x =>
      if fc7.setWidth 8 ≠ e.fc.code then { k with status := .invalidData } else { k with status := excKind x }
    | .write _ ec => if e.fc ≠ .writeMultiple then { k with status := .invalidData } else writeOK e ec k
    | .read data => if e.fc ≠ .readHolding then { k with status := .invalidData } else readOK e data k

/-- `Dispatch` of R127: a response that matches no entry is dropped and counted. -/
def State.dispatch (s : State) (tid : Half) (unit : Byte) (r : Response) : State :=
  match findTid tid s.pend with
  | none => { s with unmatched := s.unmatched + 1 }
  | some e => { s with pend := removeTid tid s.pend }.complete (resolve e unit r)

/-- The end of the cycle (R126): RXBUF is emptied and the decoder returns to AWAIT_HEADER. -/
def State.endFrame (s : State) : State := { s with rxBuf := [], dec := .awaitHeader }

/-- `FramingError` of R124. -/
def State.framingError (s : State) : State :=
  { s with rxBuf := [], dec := .awaitHeader, frameErrors := s.frameErrors + 1 }

/-- The reset event of R230: S takes its reset values; nothing emitted is withdrawn, and what waits on the ports stays (log 7). -/
def State.resetEvent (s : State) : State :=
  { State.resetWith s.cfg with out := s.out, cmdIn := s.cmdIn, rxIn := s.rxIn, turns := s.turns }

/-! ## Control and status registers (R33) -/

/-- The value of a CSR; none for the numbers 0x09..0xFF, which are not implemented. Unused bits read 0. RX_LEVEL and PENDING show
the low bits of their lengths (log 14). -/
def State.csr (s : State) (c : Byte) : Option Word :=
  match c.toNat with
  | 0 => some ((0 : BitVec 16) ++ s.nextTid)
  | 1 => some ((0 : BitVec 23) ++ BitVec.ofBool s.unit.valid ++ s.unit.id)
  | 2 => some ((0 : BitVec 15) ++ BitVec.ofNat 9 s.rxBuf.length ++ (0 : BitVec 6) ++ s.dec.code)
  | 3 => some ((0 : BitVec 15) ++ BitVec.ofNat 17 s.pend.length)
  | 4 => some s.txBytes
  | 5 => some s.rxBytes
  | 6 => some s.frameErrors
  | 7 => some s.unmatched
  | 8 => some (s.cfg.pendingTop ++ BitVec.ofNat 8 Config.maxWrite ++ BitVec.ofNat 8 Config.maxRead)
  | _ => none

end Sys2Proof.Machine
end

