-- ==== Sys2Proof/Machine/Codec.lean ====
section
/-! DEFINITION. The pure codec commands (spec/43_register_codec.md R170 to R177): they write no state but the result. -/

namespace Sys2Proof.Machine

/-- The shape of the COMPOSE commands (R170 to R173): a word count other than the view's fails UnexpectedRegisterCount. -/
def State.composeResult (s : State) (view : View) (n : Nat) (words : List Half) : State :=
  if words.length ≠ n then s.raise .unexpectedRegisterCount
  else s.result { status := .ok, value := viewValue view words }

/-- COMPOSE_U16 (R170). -/
def execComposeU16 (words : List Half) (s : State) : Host.Outcome State Fault Refusal :=
  .next (s.composeResult .u16 1 words)

/-- COMPOSE_U32 (R171). -/
def execComposeU32 (words : List Half) (s : State) : Host.Outcome State Fault Refusal :=
  .next (s.composeResult .u32 2 words)

/-- COMPOSE_I32 (R172). -/
def execComposeI32 (words : List Half) (s : State) : Host.Outcome State Fault Refusal :=
  .next (s.composeResult .i32 2 words)

/-- COMPOSE_F32 (R173). -/
def execComposeF32 (words : List Half) (s : State) : Host.Outcome State Fault Refusal :=
  .next (s.composeResult .f32 2 words)

/-- DECOMPOSE_U16 (R174). -/
def execDecomposeU16 (value : Half) (s : State) : Host.Outcome State Fault Refusal :=
  .next (s.result { status := .ok, words := decompose16 value })

/-- DECOMPOSE_U32 (R175). -/
def execDecomposeU32 (value : Word) (s : State) : Host.Outcome State Fault Refusal :=
  .next (s.result { status := .ok, words := decompose32 value })

/-- DECOMPOSE_I32 (R176). -/
def execDecomposeI32 (value : Word) (s : State) : Host.Outcome State Fault Refusal :=
  .next (s.result { status := .ok, words := decompose32 value })

/-- DECOMPOSE_F32 (R177). -/
def execDecomposeF32 (value : Word) (s : State) : Host.Outcome State Fault Refusal :=
  .next (s.result { status := .ok, words := decompose32 value })

end Sys2Proof.Machine
end

