-- ==== Sys2Proof/Machine/Control.lean ====
section
/-! DEFINITION. The control commands (spec/44_control.md R180 to R184). None of them emits on TX. -/

namespace Sys2Proof.Machine

/-- SET_UNIT (R180). -/
def execSetUnit (unit : Byte) (s : State) : Host.Outcome State Fault Refusal :=
  .next ({ s with unit := { valid := true, id := unit } }.result { status := .ok })

/-- RESET_COUNTERS (R181): FRAME_ERRORS and UNMATCHED are not cleared. -/
def execResetCounters (s : State) : Host.Outcome State Fault Refusal :=
  .next ({ s with txBytes := 0, rxBytes := 0 }.result { status := .ok })

/-- CSR_READ (R182): a number above 0x08 fails IllegalCommand. -/
def execCsrRead (csr : Byte) (s : State) : Host.Outcome State Fault Refusal :=
  match s.csr csr with
  | none => .next (s.raise .illegalCommand)
  | some v => .next (s.result { status := .ok, value := v })

/-- EXPIRE (R183). -/
def execExpire (tid : Half) (s : State) : Host.Outcome State Fault Refusal :=
  match findTid tid s.pend with
  | none => .next (s.raise .noEntry)
  | some e =>
    .next (({ s with pend := removeTid tid s.pend }.complete (failRecord e .timeout)).result { status := .ok, tid := tid })

/-- LINK_LOST (R184): one ConnectionLost completion per entry, oldest first, then the table and the partial frame are dropped. -/
def execLinkLost (s : State) : Host.Outcome State Fault Refusal :=
  .next
    ({ s with
        out := s.out ++ s.pend.map (fun e => Output.cpl (failRecord e .connectionLost))
        pend := []
        rxBuf := []
        dec := .awaitHeader }.result { status := .ok })

end Sys2Proof.Machine
end

