-- ==== Sys2Proof/Machine/Encoder.lean ====
section
/-! DEFINITION. The frame encoder: ENC_READ and ENC_WRITE (spec/41_frame_encode.md), and the request frames on TX. -/

namespace Sys2Proof.Machine

/-- ENC_READ (R110): `Admit(0x03, A, N, RAW, [])`. -/
def execEncRead (addr count : Half) (s : State) : Host.Outcome State Fault Refusal :=
  .next (s.tryAdmit .readHolding addr count.toNat .raw [])

/-- ENC_WRITE (R111): `Admit(0x10, A, N, RAW, V)`. -/
def execEncWrite (addr : Half) (values : List Half) (s : State) : Host.Outcome State Fault Refusal :=
  .next (s.tryAdmit .writeMultiple addr values.length .raw values)

/-- REQ_READ_HOLDING (R73, R106): the emission of the 12-byte request frame, which ENC_READ and READ_x run when admitted
(log 4). -/
def execReqReadHolding (tid : Half) (unit : Byte) (addr count : Half) (s : State) : Host.Outcome State Fault Refusal :=
  .next (s.transmit (readFrame tid unit addr count))

/-- REQ_WRITE_MULTIPLE (R74, R106): the emission of the request frame of 13 + 2N bytes, which ENC_WRITE and WRITE_x run when
admitted (log 4). -/
def execReqWriteMultiple (tid : Half) (unit : Byte) (addr : Half) (values : List Half) (s : State) :
    Host.Outcome State Fault Refusal :=
  .next (s.transmit (writeFrame tid unit addr values))

end Sys2Proof.Machine
end

