-- ==== Sys2Proof/Machine/Response.lean ====
section
/-! DEFINITION. The response frames (spec/42_frame_decode.md R126 to R131): what the receive step does with a completed frame.
The step enters them with DEC = DISPATCHED and the frame still in RXBUF (log 16). -/

namespace Sys2Proof.Machine

/-- RSP_READ_HOLDING (R75, R129): dispatched by transaction ID, then the cycle ends (R126). -/
def execRspReadHolding (tid : Half) (unit : Byte) (data : List Byte) (s : State) : Host.Outcome State Fault Refusal :=
  .next (s.dispatch tid unit (.read data)).endFrame

/-- RSP_WRITE_MULTIPLE (R76, R130). -/
def execRspWriteMultiple (tid : Half) (unit : Byte) (echoAddr echoCount : Half) (s : State) :
    Host.Outcome State Fault Refusal :=
  .next (s.dispatch tid unit (.write echoAddr echoCount)).endFrame

/-- RSP_EXCEPTION (R77, R131). -/
def execRspException (tid : Half) (unit : Byte) (fc7 : BitVec 7) (code : Byte) (s : State) :
    Host.Outcome State Fault Refusal :=
  .next (s.dispatch tid unit (.exception fc7 code)).endFrame

end Sys2Proof.Machine
end

