-- ==== Sys2Proof/Machine/Typed.lean ====
section
/-! DEFINITION. The typed reads and writes (spec/43_register_codec.md R160 to R167), each an `Admit` of R100. -/

namespace Sys2Proof.Machine

/-- READ_U16 (R160): `Admit(0x03, A, 1, U16, [])`. -/
def execReadU16 (addr : Half) (s : State) : Host.Outcome State Fault Refusal :=
  .next (s.tryAdmit .readHolding addr 1 .u16 [])

/-- READ_U32 (R161): `Admit(0x03, A, 2, U32, [])`. -/
def execReadU32 (addr : Half) (s : State) : Host.Outcome State Fault Refusal :=
  .next (s.tryAdmit .readHolding addr 2 .u32 [])

/-- READ_I32 (R162): `Admit(0x03, A, 2, I32, [])`. -/
def execReadI32 (addr : Half) (s : State) : Host.Outcome State Fault Refusal :=
  .next (s.tryAdmit .readHolding addr 2 .i32 [])

/-- READ_F32 (R163): `Admit(0x03, A, 2, F32, [])`. -/
def execReadF32 (addr : Half) (s : State) : Host.Outcome State Fault Refusal :=
  .next (s.tryAdmit .readHolding addr 2 .f32 [])

/-- WRITE_U16 (R164): `Admit(0x10, A, 1, U16, [v16])`. -/
def execWriteU16 (addr value : Half) (s : State) : Host.Outcome State Fault Refusal :=
  .next (s.tryAdmit .writeMultiple addr 1 .u16 (decompose16 value))

/-- WRITE_U32 (R165): `Admit(0x10, A, 2, U32, Decompose32(v32))`. -/
def execWriteU32 (addr : Half) (value : Word) (s : State) : Host.Outcome State Fault Refusal :=
  .next (s.tryAdmit .writeMultiple addr 2 .u32 (decompose32 value))

/-- WRITE_I32 (R166): `Admit(0x10, A, 2, I32, Decompose32(v32))`. -/
def execWriteI32 (addr : Half) (value : Word) (s : State) : Host.Outcome State Fault Refusal :=
  .next (s.tryAdmit .writeMultiple addr 2 .i32 (decompose32 value))

/-- WRITE_F32 (R167): `Admit(0x10, A, 2, F32, Decompose32(v32))`; every pattern is sent bit for bit (R154). -/
def execWriteF32 (addr : Half) (value : Word) (s : State) : Host.Outcome State Fault Refusal :=
  .next (s.tryAdmit .writeMultiple addr 2 .f32 (decompose32 value))

end Sys2Proof.Machine
end

