-- ==== Sys2Proof/Machine/Dispatch.lean ====
section
/-! DEFINITION. One arm per instruction. -/

namespace Sys2Proof.Machine

def exec (i : Instr) (s : State) : Host.Outcome State Fault Refusal :=
  match i with
  -- spec/41_frame_encode.md
  | .encRead addr count => Sys2Proof.Machine.execEncRead addr count s
  | .encWrite addr values => Sys2Proof.Machine.execEncWrite addr values s
  -- spec/43_register_codec.md
  | .readU16 addr => Sys2Proof.Machine.execReadU16 addr s
  | .readU32 addr => Sys2Proof.Machine.execReadU32 addr s
  | .readI32 addr => Sys2Proof.Machine.execReadI32 addr s
  | .readF32 addr => Sys2Proof.Machine.execReadF32 addr s
  | .writeU16 addr value => Sys2Proof.Machine.execWriteU16 addr value s
  | .writeU32 addr value => Sys2Proof.Machine.execWriteU32 addr value s
  | .writeI32 addr value => Sys2Proof.Machine.execWriteI32 addr value s
  | .writeF32 addr value => Sys2Proof.Machine.execWriteF32 addr value s
  | .composeU16 words => Sys2Proof.Machine.execComposeU16 words s
  | .composeU32 words => Sys2Proof.Machine.execComposeU32 words s
  | .composeI32 words => Sys2Proof.Machine.execComposeI32 words s
  | .composeF32 words => Sys2Proof.Machine.execComposeF32 words s
  | .decomposeU16 value => Sys2Proof.Machine.execDecomposeU16 value s
  | .decomposeU32 value => Sys2Proof.Machine.execDecomposeU32 value s
  | .decomposeI32 value => Sys2Proof.Machine.execDecomposeI32 value s
  | .decomposeF32 value => Sys2Proof.Machine.execDecomposeF32 value s
  -- spec/44_control.md
  | .setUnit unit => Sys2Proof.Machine.execSetUnit unit s
  | .resetCounters => Sys2Proof.Machine.execResetCounters s
  | .csrRead csr => Sys2Proof.Machine.execCsrRead csr s
  | .expire tid => Sys2Proof.Machine.execExpire tid s
  | .linkLost => Sys2Proof.Machine.execLinkLost s
  -- the wire frames (spec/30_encoding.md R73 to R77, spec/42_frame_decode.md)
  | .reqReadHolding tid unit addr count => Sys2Proof.Machine.execReqReadHolding tid unit addr count s
  | .reqWriteMultiple tid unit addr values => Sys2Proof.Machine.execReqWriteMultiple tid unit addr values s
  | .rspReadHolding tid unit data => Sys2Proof.Machine.execRspReadHolding tid unit data s
  | .rspWriteMultiple tid unit echoAddr echoCount => Sys2Proof.Machine.execRspWriteMultiple tid unit echoAddr echoCount s
  | .rspException tid unit fc7 code => Sys2Proof.Machine.execRspException tid unit fc7 code s

end Sys2Proof.Machine
end

