-- ==== Sys2Proof/Machine/Fetch.lean ====
section
/-! DEFINITION. What a step takes from the ports: a whole command (R70, R71, R79), one received byte (R120 to R126), a reset
event (R230), or nothing (log 3). -/

namespace Sys2Proof.Machine

/-- What a step has found to do. -/
inductive Fetched where
  /-- The step ends here, in this state. -/
  | done (t : State)
  /-- The step ends with the meaning of this instruction, from this state. -/
  | run (i : Instr) (t : State)
  /-- A decoder state that the spec excludes (log 5). -/
  | stop (f : Fault)
deriving DecidableEq, Repr

/-- The check of R125, at the 9th byte of a read response: the length field is not 3 + BC. -/
def byteCountWrong (f : Byte) (len : Nat) (body : List Byte) : Bool :=
  match body with
  | [bc] => f == FunCode.readHolding.code && len != 3 + bc.toNat
  | _ => false

/-- The AWAIT_HEADER branch of `RxStep` (R120, R121), with the new byte already in RXBUF. -/
def State.receiveHeader (s : State) : Fetched :=
  match s.rxBuf with
  | _ :: _ :: p1 :: p0 :: l1 :: l0 :: _ :: f :: _ =>
    if headerOK (u16be p1 p0) (u16be l1 l0) f then .done { s with dec := .awaitBody } else .done s.framingError
  | _ => .done s

/-- The AWAIT_BODY branch of `RxStep` (R120, R125, R126), with the new byte already in RXBUF. At the last byte of the frame the
decoder is DISPATCHED and the frame's meaning runs. -/
def State.receiveBody (s : State) : Fetched :=
  match s.rxBuf with
  | _ :: _ :: _ :: _ :: l1 :: l0 :: _ :: f :: body =>
    if byteCountWrong f (u16be l1 l0).toNat body then .done s.framingError
    else if s.rxBuf.length = 6 + (u16be l1 l0).toNat then
      match decodeResponse s.rxBuf with
      | .ok i => .run i { s with dec := .dispatched }
      | .error _ => .stop .completeButUnframed
    else .done s
  | _ => .stop .bodyWithoutHeader

/-- `RxStep(b)` of R120. -/
def State.receive (s : State) (b : Byte) : Fetched :=
  let s1 := { s with rxBytes := s.rxBytes + 1, rxBuf := s.rxBuf ++ [b] }
  match s.dec with
  | .awaitHeader => s1.receiveHeader
  | .awaitBody => s1.receiveBody
  | .dispatched => .stop .dispatchedBetweenSteps

/-- Takes a command from the command port (R21, R71): a whole command runs, an illegal one is answered by IllegalCommand after
all its words are consumed (R79), and nothing is taken of one that has not wholly arrived (log 3). -/
def State.takeCommand (s : State) : Fetched :=
  match decodeCmd s.cmdIn with
  | .instr i rest => .run i { s with cmdIn := rest }
  | .illegal _ rest => .done ({ s with cmdIn := rest }.raise .illegalCommand)
  | .incomplete => .done s

/-- Takes a byte from the receive port, if one waits. -/
def State.takeByte (s : State) : Fetched :=
  match s.rxIn with
  | b :: rest => { s with rxIn := rest }.receive b
  | [] => .done s

/-- What the next step does: the first of `turns` says who moves (R13; log 2). With no turn the block waits (R230; log 3). -/
def fetch (s : State) : Fetched :=
  match s.turns with
  | [] => .done s
  | .cmd :: ts => { s with turns := ts }.takeCommand
  | .rx :: ts => { s with turns := ts }.takeByte
  | .reset :: ts => .done { s with turns := ts }.resetEvent

/-- `s` with command words put on the command port as the next thing to move. -/
def State.offerCommand (s : State) (ws : List Word) : State :=
  { s with cmdIn := ws ++ s.cmdIn, turns := .cmd :: s.turns }

/-- `s` with a response frame received but for its last byte, and that byte as the next thing to move. -/
def State.offerResponse (s : State) (f : List Byte) : State :=
  { s with rxBuf := f.dropLast, dec := .awaitBody, rxIn := f.getLast?.toList ++ s.rxIn, turns := .rx :: s.turns }

end Sys2Proof.Machine
end

