-- ==== Sys2Proof/Machine/Step.lean ====
section
/-! DEFINITION. One atomic step of the block (R60), and the placing of a table row's word for it. -/

namespace Sys2Proof.Machine

/-- One step: what the ports give, and the meaning of the instruction they complete. -/
def step (s : State) : Host.Outcome State Fault Refusal :=
  match fetch s with
  | .done t => .next t
  | .run i t => exec i t
  | .stop f => .fault f

/-- `s` with the instruction of a table row's word (`decodeTableWord`) as the next thing that `step` runs (log 9): a command on
the command port with its turn, or a response frame of which only the last byte has still to be received. -/
def State.withFetchWord (s : State) (nbits w : Nat) : State :=
  if nbits ≤ 8 then s.offerResponse (tableResponse (BitVec.ofNat 8 w)) else s.offerCommand (tableCommand w)

end Sys2Proof.Machine
end

