-- ==== Sys2Proof/Machine/Asm.lean ====
section
/-! DEFINITION. The assembly syntax of R84, one line at a time, and how an assembled line is put on the block's ports. It is
notation of the spec, not behaviour of the block (log 17); the machine does not import it. -/

namespace Sys2Proof.Asm

inductive Token where
  | word (cs : List Char)
  | comma
  | lbracket
  | rbracket
deriving DecidableEq, Repr

/-- Ends the word read so far (its characters newest first). -/
def endWord (acc : List Char) (ts : List Token) : List Token :=
  if acc = [] then ts else .word acc.reverse :: ts

/-- The tokens of a line; `;` starts a comment. -/
def tokensFrom (acc : List Char) : List Char → List Token
  | [] => endWord acc []
  | c :: cs =>
    if c = ';' then endWord acc []
    else if c = ' ' then endWord acc (tokensFrom [] cs)
    else if c = ',' then endWord acc (.comma :: tokensFrom [] cs)
    else if c = '[' then endWord acc (.lbracket :: tokensFrom [] cs)
    else if c = ']' then endWord acc (.rbracket :: tokensFrom [] cs)
    else tokensFrom (c :: acc) cs

def digitOf (base : Nat) (c : Char) : Option Nat :=
  let n := c.toNat
  let d := if 48 ≤ n && n ≤ 57 then n - 48
    else if 65 ≤ n && n ≤ 70 then n - 55
    else if 97 ≤ n && n ≤ 102 then n - 87
    else base
  if d < base then some d else none

def digitsFrom (base acc : Nat) : List Char → Option Nat
  | [] => some acc
  | c :: cs =>
    match digitOf base c with
    | some d => digitsFrom base (acc * base + d) cs
    | none => none

def numeral (base : Nat) (cs : List Char) : Option Nat := if cs = [] then none else digitsFrom base 0 cs

/-- A number "in decimal or `0x` hexadecimal". -/
def natOf : List Char → Option Nat
  | '0' :: 'x' :: hs => numeral 16 hs
  | cs => numeral 10 cs

/-- A number, or a negative decimal (which R84 lets an assembler accept for an I32 operand). -/
def intOf : List Char → Option Int
  | '-' :: ds => (numeral 10 ds).map (fun n => -(n : Int))
  | cs => (natOf cs).map (fun n => (n : Int))

inductive Operand where
  | num (n : Int)
  | list (ns : List Int)
deriving DecidableEq, Repr

/-- The operands of a command, separated by commas. `inside` is the bracketed list being read, `expect` says that an operand
must come next. -/
def operandsFrom (done : List Operand) (inside : Option (List Int)) (expect : Bool) : List Token → Option (List Operand)
  | [] => if inside.isNone && (!expect || done.isEmpty) then some done.reverse else none
  | .word w :: ts =>
    match expect, intOf w, inside with
    | true, some n, none => operandsFrom (.num n :: done) none false ts
    | true, some n, some l => operandsFrom done (some (l ++ [n])) false ts
    | _, _, _ => none
  | .comma :: ts => if expect then none else operandsFrom done inside true ts
  | .lbracket :: ts => if expect && inside.isNone then operandsFrom done (some []) true ts else none
  | .rbracket :: ts =>
    match inside with
    | some l => if expect && !l.isEmpty then none else operandsFrom (.list l :: done) none false ts
    | none => none

def byteOf (n : Int) : Option Byte := if 0 ≤ n ∧ n < 256 then some (BitVec.ofInt 8 n) else none

def halfOf (n : Int) : Option Half := if 0 ≤ n ∧ n < 65536 then some (BitVec.ofInt 16 n) else none

def wordOf (n : Int) : Option Word := if 0 ≤ n ∧ n < 4294967296 then some (BitVec.ofInt 32 n) else none

/-- An I32 operand: a pattern, or a signed decimal written as its two's-complement pattern. -/
def word32I (n : Int) : Option Word :=
  if -2147483648 ≤ n ∧ n < 4294967296 then some (BitVec.ofInt 32 n) else none

def halvesOf : List Int → Option (List Half)
  | [] => some []
  | n :: ns =>
    match halfOf n, halvesOf ns with
    | some h, some hs => some (h :: hs)
    | _, _ => none

/-- Two operands of an instruction, if both are in range. -/
def both {α β : Type} (mk : α → β → Instr) (a : Option α) (b : Option β) : Option Instr :=
  match a, b with
  | some x, some y => some (mk x y)
  | _, _ => none

/-- The instruction of a mnemonic and its operands. -/
def instrOf (mnemonic : String) (ops : List Operand) : Option Instr :=
  match ops with
  | [] =>
    if mnemonic = "RESET_COUNTERS" then some .resetCounters
    else if mnemonic = "LINK_LOST" then some .linkLost
    else none
  | [.num a] =>
    if mnemonic = "READ_U16" then (halfOf a).map .readU16
    else if mnemonic = "READ_U32" then (halfOf a).map .readU32
    else if mnemonic = "READ_I32" then (halfOf a).map .readI32
    else if mnemonic = "READ_F32" then (halfOf a).map .readF32
    else if mnemonic = "DECOMPOSE_U16" then (halfOf a).map .decomposeU16
    else if mnemonic = "DECOMPOSE_U32" then (wordOf a).map .decomposeU32
    else if mnemonic = "DECOMPOSE_I32" then (word32I a).map .decomposeI32
    else if mnemonic = "DECOMPOSE_F32" then (wordOf a).map .decomposeF32
    else if mnemonic = "SET_UNIT" then (byteOf a).map .setUnit
    else if mnemonic = "CSR_READ" then (byteOf a).map .csrRead
    else if mnemonic = "EXPIRE" then (halfOf a).map .expire
    else none
  | [.num a, .num b] =>
    if mnemonic = "ENC_READ" then both .encRead (halfOf a) (halfOf b)
    else if mnemonic = "WRITE_U16" then both .writeU16 (halfOf a) (halfOf b)
    else if mnemonic = "WRITE_U32" then both .writeU32 (halfOf a) (wordOf b)
    else if mnemonic = "WRITE_I32" then both .writeI32 (halfOf a) (word32I b)
    else if mnemonic = "WRITE_F32" then both .writeF32 (halfOf a) (wordOf b)
    else none
  | [.list ws] =>
    if mnemonic = "COMPOSE_U16" then (halvesOf ws).map .composeU16
    else if mnemonic = "COMPOSE_U32" then (halvesOf ws).map .composeU32
    else if mnemonic = "COMPOSE_I32" then (halvesOf ws).map .composeI32
    else if mnemonic = "COMPOSE_F32" then (halvesOf ws).map .composeF32
    else none
  | [.num a, .num n, .list vs] =>
    if mnemonic = "ENC_WRITE" ∧ n = vs.length then both .encWrite (halfOf a) (halvesOf vs) else none
  | _ => none

/-- The bytes of an `RX b0 b1 ...` line, each in hexadecimal as spec/95_test_vectors.md writes them (log 17). -/
def rxBytes : List Token → Option (List Byte)
  | [] => some []
  | .word w :: ts =>
    match (numeral 16 w).bind (fun n => byteOf n), rxBytes ts with
    | some b, some bs => some (b :: bs)
    | _, _ => none
  | _ :: _ => none

inductive Line where
  | blank
  | command (i : Instr)
  | receive (bytes : List Byte)
deriving DecidableEq, Repr

/-- One line of a program (R84); none if it is not in the syntax, or is no well-formed instruction. -/
def assemble (line : String) : Option Line :=
  match tokensFrom [] line.toList with
  | [] => some .blank
  | .word m :: ts =>
    if m = "RX".toList then (rxBytes ts).map .receive
    else
      match (operandsFrom [] none true ts).bind (instrOf (String.ofList m)) with
      | some i => if i.wf then some (.command i) else none
      | none => none
  | _ => none

/-- Puts an assembled line on the ports, after what waits there, with its turns: "one receive step per listed byte". -/
def Line.offer (l : Line) (s : Machine.State) : Machine.State :=
  match l with
  | .blank => s
  | .command i =>
    match encode i with
    | .cmd ws => { s with cmdIn := s.cmdIn ++ ws, turns := s.turns ++ [.cmd] }
    | .tx _ | .rx _ => s
  | .receive bs => { s with rxIn := s.rxIn ++ bs, turns := s.turns ++ bs.map (fun _ => Machine.Turn.rx) }

end Sys2Proof.Asm
end

