-- ==== Sys2Proof/Machine/Records.lean ====
section
/-! DEFINITION. The packing of result and completion records into words (R80, R81). -/

namespace Sys2Proof.Machine

/-- RW0, RW1 and the words of a result (R80). -/
def Result.pack (r : Result) : List Word :=
  (r.status.code ++ BitVec.ofNat 8 r.words.length ++ r.tid) :: r.value :: r.words.map halfWord

/-- K0 to K4 and the words of a completion (R81). -/
def Completion.pack (k : Completion) : List Word :=
  (k.status.code ++ k.exc ++ k.tid) ::
  (k.unit ++ k.fc.code ++ k.view.code ++ BitVec.ofNat 8 k.words.length) ::
  (k.addr ++ k.count) :: k.value :: (k.echoAddr ++ k.echoCount) :: k.words.map halfWord

end Sys2Proof.Machine
end

