-- ==== Sys2Proof/Safety.lean ====
section
/-! DEFINITION. What a sound state of the block is: the invariants that spec/10_state.md R24, R27 and spec/42_frame_decode.md
R134 state of the states between steps. -/

namespace Sys2Proof.Machine

/-- The register count that an entry's view fixes (R151): RAW entries have any. -/
def viewCountOk (view : View) (n : Nat) : Bool :=
  match view.wordCount with
  | none => true
  | some k => n == k

/-- The values an entry keeps (R24): as many as the count for a 0x10 request, none for a 0x03 request. -/
def wvalsOk (fc : FunCode) (n : Nat) (wvals : List Half) : Bool :=
  match fc with
  | .readHolding => wvals.length == 0
  | .writeMultiple => wvals.length == n

/-- An entry as an admitted encode command makes it (R24, R100). -/
def Entry.sound (e : Entry) : Bool :=
  countAllowed e.fc e.count.toNat && viewCountOk e.view e.count.toNat && wvalsOk e.fc e.count.toNat e.wvals

/-- The receive buffer holds a partial frame that the decoder's state agrees with (R27, R123, R125, R134): at most 7 bytes in
AWAIT_HEADER; in AWAIT_BODY a header that passed the check, fewer bytes than its frame has, and a byte count that was checked. -/
def State.rxSound (s : State) : Bool :=
  match s.dec with
  | .awaitHeader => s.rxBuf.length ≤ 7
  | .awaitBody =>
    match s.rxBuf with
    | _ :: _ :: p1 :: p0 :: l1 :: l0 :: _ :: f :: body =>
      headerOK (u16be p1 p0) (u16be l1 l0) f && s.rxBuf.length < 6 + (u16be l1 l0).toNat &&
        (match body with
         | bc :: _ => f != FunCode.readHolding.code || (u16be l1 l0).toNat == 3 + bc.toNat
         | [] => true)
    | _ => false
  | .dispatched => false

/-- A sound state between steps. The ports, the counters and the unit ID may hold anything. -/
structure State.Sound (s : State) : Prop where
  /-- "with at most MAX_PENDING entries" (R24) -/
  bounded : s.pend.length ≤ s.cfg.maxPending
  /-- "no two entries with the same tid" (R24) -/
  distinct : (s.pend.map Entry.tid).Nodup
  /-- Every entry is one that R100 admits. -/
  entries : ∀ e ∈ s.pend, e.sound = true
  /-- R27, R134 -/
  rx : s.rxSound = true

/-- A run of the machine does not stop here. -/
def State.Steps (s : State) : Prop := ∃ t, step s = .next t

/-- `k` steps, as `Host.Core.run` counts them, over this machine's own types. -/
def State.run : Nat → State → Host.Outcome State Fault Refusal
  | 0, s => .next s
  | k + 1, s =>
    match step s with
    | .next t => State.run k t
    | .fault f => .fault f
    | .refused r => .refused r

end Sys2Proof.Machine
end

