-- ==== Sys2Proof/Certificates/Slice0/Obligations.lean ====
section
/-! DEFINITION. The statements about the block, from the numbered rules of spec/. The first part holds what the statements are
written with: the spec's tables and formulas in plain arithmetic, apart from the model's own definitions. -/

namespace Sys2Proof.Claims

open Sys2Proof.Machine

/-! ## Bytes and frames, in arithmetic -/

/-- The high byte of a 16-bit value. -/
def hi (v : Half) : Byte := BitVec.ofNat 8 (v.toNat / 256)

/-- The low byte of a 16-bit value. -/
def lo (v : Half) : Byte := BitVec.ofNat 8 (v.toNat % 256)

/-- The number of two bytes, the first one high. -/
def be (a b : Byte) : Nat := 256 * a.toNat + b.toNat

/-- The 12 bytes of R73. -/
def readRequest (tid : Half) (unit : Byte) (addr count : Half) : List Byte :=
  [hi tid, lo tid, 0x00, 0x00, 0x00, 0x06, unit, 0x03, hi addr, lo addr, hi count, lo count]

/-- The 13 + 2N bytes of R74. -/
def writeRequest (tid : Half) (unit : Byte) (addr : Half) (values : List Half) : List Byte :=
  [hi tid, lo tid, 0x00, 0x00, hi (BitVec.ofNat 16 (7 + 2 * values.length)), lo (BitVec.ofNat 16 (7 + 2 * values.length)),
    unit, 0x10, hi addr, lo addr, hi (BitVec.ofNat 16 values.length), lo (BitVec.ofNat 16 values.length),
    BitVec.ofNat 8 (2 * values.length)] ++ values.flatMap (fun v => [hi v, lo v])

/-! ## The command port -/

/-- The opcode map of R72: OP, mnemonic, format. -/
def opcodeRows : List (Nat × Opcode × Format) :=
  [(0x01, .encRead, .AC), (0x02, .encWrite, .ACD), (0x11, .readU16, .A), (0x12, .readU32, .A), (0x13, .readI32, .A),
   (0x14, .readF32, .A), (0x19, .writeU16, .AV16), (0x1A, .writeU32, .AV32), (0x1B, .writeI32, .AV32),
   (0x1C, .writeF32, .AV32), (0x21, .composeU16, .NW), (0x22, .composeU32, .NW), (0x23, .composeI32, .NW),
   (0x24, .composeF32, .NW), (0x29, .decomposeU16, .V16), (0x2A, .decomposeU32, .V32), (0x2B, .decomposeI32, .V32),
   (0x2C, .decomposeF32, .V32), (0x31, .setUnit, .U), (0x32, .resetCounters, .N), (0x33, .csrRead, .C), (0x34, .expire, .T),
   (0x35, .linkLost, .N)]

/-- The typed opcodes and their views (R72). -/
def typedOpcodes : List (Opcode × View) :=
  [(.readU16, .u16), (.readU32, .u32), (.readI32, .i32), (.readF32, .f32), (.writeU16, .u16), (.writeU32, .u32),
   (.writeI32, .i32), (.writeF32, .f32), (.composeU16, .u16), (.composeU32, .u32), (.composeI32, .i32), (.composeF32, .f32),
   (.decomposeU16, .u16), (.decomposeU32, .u32), (.decomposeI32, .i32), (.decomposeF32, .f32)]

/-- The view codes of R25. -/
def viewNumber : View → Nat
  | .raw => 0
  | .u16 => 1
  | .u32 => 2
  | .i32 => 3
  | .f32 => 4

/-- The function codes of R24 and R82. -/
def fcNumber : FunCode → Nat
  | .readHolding => 0x03
  | .writeMultiple => 0x10

/-- The decoder-state numbers of R27, as CSR 0x02 shows them (R33). -/
def decNumber : DecState → Nat
  | .awaitHeader => 0
  | .awaitBody => 1
  | .dispatched => 2

/-- The unassigned OP values of R72. -/
def Unassigned (n : Nat) : Prop :=
  n = 0x00 ∨ (0x03 ≤ n ∧ n ≤ 0x10) ∨ (0x15 ≤ n ∧ n ≤ 0x18) ∨ (0x1D ≤ n ∧ n ≤ 0x20) ∨ (0x25 ≤ n ∧ n ≤ 0x28) ∨
    (0x2D ≤ n ∧ n ≤ 0x30) ∨ (0x36 ≤ n ∧ n ≤ 0xFF)

/-- The number of operand words by format (R71): n is SUB, N is W1[15:0]. -/
def operandWords (f : Format) (sub : Byte) (w1 : Word) : Nat :=
  match f with
  | .A | .U | .C | .T | .N => 0
  | .AC | .AV16 | .AV32 | .V16 | .V32 => 1
  | .NW => sub.toNat
  | .ACD => 1 + w1.toNat % 65536

/-- Every field that the format marks 0 is 0 (R71, R79): SUB, ARG, or bits [31:16] of a 16-bit operand word. -/
def ReservedZero (f : Format) (sub : Byte) (arg : Half) (ops : List Word) : Prop :=
  match f with
  | .A | .T => sub = 0
  | .AC | .ACD | .AV16 => sub = 0 ∧ ∀ w ∈ ops, w.toNat < 65536
  | .AV32 => sub = 0
  | .NW => arg = 0 ∧ ∀ w ∈ ops, w.toNat < 65536
  | .V16 => sub = 0 ∧ arg = 0 ∧ ∀ w ∈ ops, w.toNat < 65536
  | .V32 | .N => sub = 0 ∧ arg = 0
  | .U | .C => arg = 0

/-! ## States and records -/

/-- A command has been taken: its turn, and its words but for `rest`. -/
def taken (s : State) (ts : List Turn) (rest : List Word) : State := { s with turns := ts, cmdIn := rest }

/-- One result is appended to RES and nothing else changes. -/
def answer (s : State) (r : Result) : State := { s with out := s.out ++ [.res r] }

/-- "a failed command returns tid 0, value 0 and no words" (R80). -/
def failed (st : Status) : Result := { status := st, tid := 0, value := 0, words := [] }

/-- A byte has been received into RXBUF and counted (R120). -/
def received (s : State) (ts : List Turn) (b : Byte) (rest : List Byte) : State :=
  { s with turns := ts, rxIn := rest, rxBytes := s.rxBytes + 1, rxBuf := s.rxBuf ++ [b] }

/-- The framing error of R124. -/
def discarded (s : State) : State := { s with rxBuf := [], dec := .awaitHeader, frameErrors := s.frameErrors + 1 }

/-- The completion record of an entry (R81, R132), with the fields that the resolution sets. -/
def record (e : Entry) (st : Status) (exc : Byte) (echoAddr echoCount : Half) (value : Word) (words : List Half) : Completion :=
  { tid := e.tid, status := st, exc := exc, unit := e.unit, fc := e.fc, view := e.view, addr := e.addr, count := e.count,
    value := value, echoAddr := echoAddr, echoCount := echoCount, words := words }

/-- The pending table without the entry of a tid. -/
def others (s : State) (tid : Half) : List Entry := s.pend.filter (fun e => e.tid != tid)

/-- A frame has resolved the entry of `tid` with the record `k`, and the decoder's cycle has ended (R126, R127). -/
def resolved (s : State) (tid : Half) (k : Completion) : State :=
  { s with pend := others s tid, out := s.out ++ [.cpl k], rxBuf := [], dec := .awaitHeader }

/-- A frame has been dropped and counted, and the decoder's cycle has ended (R126, R127). -/
def dropped (s : State) : State := { s with unmatched := s.unmatched + 1, rxBuf := [], dec := .awaitHeader }

/-- The receive buffer's bounds in the two decoder states between steps (R27, R134). -/
def BufferBounded (s : State) : Prop :=
  s.rxBuf.length ≤ 6 + 254 ∧ (s.dec = .awaitHeader → s.rxBuf.length ≤ 7) ∧ (s.dec = .awaitBody ↔ 8 ≤ s.rxBuf.length) ∧
  s.dec ≠ .dispatched ∧
  ∀ t1 t0 p1 p0 l1 l0 u f : Byte, ∀ body : List Byte,
    s.dec = .awaitBody → s.rxBuf = t1 :: t0 :: p1 :: p0 :: l1 :: l0 :: u :: f :: body →
      s.rxBuf.length ≤ 5 + be l1 l0 ∧ be l1 l0 ≤ 254

/-- "no two entries with the same tid" (R24). -/
def Distinct (s : State) : Prop := (s.pend.map Entry.tid).Nodup

/-- The value of a read's words under its view (R150), in arithmetic, for word lists of the length the view needs. -/
def typedValue (view : View) (words : List Half) : Word :=
  match view, words with
  | .u16, [w] => BitVec.ofNat 32 w.toNat
  | .u32, [h, l] => BitVec.ofNat 32 (65536 * h.toNat + l.toNat)
  | .i32, [h, l] => BitVec.ofNat 32 (65536 * h.toNat + l.toNat)
  | .f32, [h, l] => BitVec.ofNat 32 (65536 * h.toNat + l.toNat)
  | _, _ => 0

/-! ## The encode commands (R110, R111, R160 to R167) -/

/-- The arguments with which an encode command runs `Admit` (R100). -/
structure Request where
  fc     : FunCode
  addr   : Half
  n      : Nat
  view   : View
  values : List Half

/-- The two registers of a 32-bit value, the high word first (R51, R152). -/
def twoWords (v : Word) : List Half := [BitVec.ofNat 16 (v.toNat / 65536), BitVec.ofNat 16 (v.toNat % 65536)]

/-- What each encode command asks `Admit` for. -/
def requestOf : Instr → Option Request
  | .encRead a n => some ⟨.readHolding, a, n.toNat, .raw, []⟩
  | .encWrite a vs => some ⟨.writeMultiple, a, vs.length, .raw, vs⟩
  | .readU16 a => some ⟨.readHolding, a, 1, .u16, []⟩
  | .readU32 a => some ⟨.readHolding, a, 2, .u32, []⟩
  | .readI32 a => some ⟨.readHolding, a, 2, .i32, []⟩
  | .readF32 a => some ⟨.readHolding, a, 2, .f32, []⟩
  | .writeU16 a v => some ⟨.writeMultiple, a, 1, .u16, [v]⟩
  | .writeU32 a v => some ⟨.writeMultiple, a, 2, .u32, twoWords v⟩
  | .writeI32 a v => some ⟨.writeMultiple, a, 2, .i32, twoWords v⟩
  | .writeF32 a v => some ⟨.writeMultiple, a, 2, .f32, twoWords v⟩
  | .composeU16 _ | .composeU32 _ | .composeI32 _ | .composeF32 _ => none
  | .decomposeU16 _ | .decomposeU32 _ | .decomposeI32 _ | .decomposeF32 _ => none
  | .setUnit _ | .resetCounters | .csrRead _ | .expire _ | .linkLost => none
  | .reqReadHolding _ _ _ _ | .reqWriteMultiple _ _ _ _ => none
  | .rspReadHolding _ _ _ | .rspWriteMultiple _ _ _ _ | .rspException _ _ _ _ => none

/-- The register counts that R100 admits. -/
def CountAdmitted (r : Request) : Prop :=
  match r.fc with
  | .readHolding => 1 ≤ r.n ∧ r.n ≤ 125
  | .writeMultiple => 1 ≤ r.n ∧ r.n ≤ 123

/-- The frame of an admitted request (R73, R74). -/
def frameOf (s : State) (r : Request) : List Byte :=
  match r.fc with
  | .readHolding => readRequest s.nextTid s.unit.id r.addr (BitVec.ofNat 16 r.n)
  | .writeMultiple => writeRequest s.nextTid s.unit.id r.addr r.values

/-- The length of that frame: 12 for a 0x03 request, 13 + 2N for a 0x10 request (R106). -/
def frameLength (r : Request) : Nat :=
  match r.fc with
  | .readHolding => 12
  | .writeMultiple => 13 + 2 * r.n

/-- The entry of an admitted request (R105). -/
def entryOf (s : State) (r : Request) : Entry :=
  { tid := s.nextTid, unit := s.unit.id, fc := r.fc, addr := r.addr, count := BitVec.ofNat 16 r.n, view := r.view,
    wvals := r.values }

/-- The state after an admission (R100), from a table `kept` and after the completions `evicted`. -/
def afterAdmission (s : State) (r : Request) (kept : List Entry) (evicted : List Output) : State :=
  { s with
    nextTid := s.nextTid + 1
    pend := kept ++ [entryOf s r]
    txBytes := s.txBytes + BitVec.ofNat 32 (frameLength r)
    out := s.out ++ evicted ++ [.tx (frameOf s r), .res { status := .ok, tid := s.nextTid, value := 0, words := [] }] }

/-! ## Other tables -/

/-- The value of a CSR (R33), in arithmetic. -/
def csrValue (s : State) : Nat → Nat
  | 0 => s.nextTid.toNat
  | 1 => s.unit.id.toNat + 256 * s.unit.valid.toNat
  | 2 => decNumber s.dec + 256 * s.rxBuf.length
  | 3 => s.pend.length
  | 4 => s.txBytes.toNat
  | 5 => s.rxBytes.toNat
  | 6 => s.frameErrors.toNat
  | 7 => s.unmatched.toNat
  | 8 => 125 + 256 * 123 + 65536 * (s.cfg.maxPending - 1)
  | _ => 0

/-- The status numbers of R200. -/
def statusNumbers : List (Status × Nat) :=
  [(.ok, 0x00), (.invalidFunction, 0x01), (.invalidAddress, 0x02), (.invalidValue, 0x03), (.serverFailure, 0x04), (.ack, 0x05),
   (.serverBusy, 0x06), (.nack, 0x07), (.memoryParity, 0x08), (.notDefined, 0x09), (.gatewayPathUnavailable, 0x0A),
   (.noResponse, 0x0B), (.invalidExceptionCode, 0x0C), (.timeout, 0x10), (.connectionLost, 0x11), (.deviceIDNotSet, 0x12),
   (.unexpectedRegisterCount, 0x13), (.invalidData, 0x14), (.badServer, 0x15), (.dataOverflow, 0x16), (.illegalCommand, 0x20),
   (.pendingFull, 0x21), (.noEntry, 0x22)]

/-- The header check of R123, in arithmetic. -/
def HeaderPasses (pid len : Nat) (f : Byte) : Prop :=
  pid = 0 ∧ ((128 ≤ f.toNat ∧ len = 3) ∨ (f.toNat = 0x10 ∧ len = 6) ∨ (f.toNat = 0x03 ∧ 3 ≤ len ∧ len ≤ 254))

/-- The transaction ID of a response frame. -/
def responseTid : Instr → Option Half
  | .rspReadHolding tid _ _ => some tid
  | .rspWriteMultiple tid _ _ _ => some tid
  | .rspException tid _ _ _ => some tid
  | .encRead _ _ | .encWrite _ _ | .readU16 _ | .readU32 _ | .readI32 _ | .readF32 _ => none
  | .writeU16 _ _ | .writeU32 _ _ | .writeI32 _ _ | .writeF32 _ _ => none
  | .composeU16 _ | .composeU32 _ | .composeI32 _ | .composeF32 _ => none
  | .decomposeU16 _ | .decomposeU32 _ | .decomposeI32 _ | .decomposeF32 _ => none
  | .setUnit _ | .resetCounters | .csrRead _ | .expire _ | .linkLost => none
  | .reqReadHolding _ _ _ _ | .reqWriteMultiple _ _ _ _ => none

/-- The statuses a command can return in its result (R203). -/
def resultStatuses : Instr → List Status
  | .encRead _ _ | .encWrite _ _ => [.ok, .illegalCommand, .deviceIDNotSet, .dataOverflow, .pendingFull]
  | .readU16 _ | .readU32 _ | .readI32 _ | .readF32 _ => [.ok, .illegalCommand, .deviceIDNotSet, .pendingFull]
  | .writeU16 _ _ | .writeU32 _ _ | .writeI32 _ _ | .writeF32 _ _ => [.ok, .illegalCommand, .deviceIDNotSet, .pendingFull]
  | .composeU16 _ | .composeU32 _ | .composeI32 _ | .composeF32 _ => [.ok, .illegalCommand, .unexpectedRegisterCount]
  | .decomposeU16 _ | .decomposeU32 _ | .decomposeI32 _ | .decomposeF32 _ => [.ok, .illegalCommand]
  | .setUnit _ | .resetCounters | .linkLost | .csrRead _ => [.ok, .illegalCommand]
  | .expire _ => [.ok, .illegalCommand, .noEntry]
  | .reqReadHolding _ _ _ _ | .reqWriteMultiple _ _ _ _ => []
  | .rspReadHolding _ _ _ | .rspWriteMultiple _ _ _ _ | .rspException _ _ _ _ => []

/-- How many frames an output log holds. -/
def frameCount (os : List Output) : Nat :=
  (os.filter (fun o => match o with
    | .tx _ => true
    | .res _ | .cpl _ => false)).length

end Sys2Proof.Claims

open Sys2Proof Sys2Proof.Machine Sys2Proof.Claims

/-! ## Encoding -/

/-- R72, whole: the opcode map, the view code of R25 in the low three bits of the typed opcodes, and the unassigned values. -/
def Obligations.OpcodeMapIsTheTable : Prop :=
  (∀ r ∈ opcodeRows, opcodeOf (BitVec.ofNat 8 r.1) = some r.2.1 ∧ r.2.1.format = r.2.2) ∧
  (∀ p ∈ typedOpcodes, p.1.op.toNat % 8 = viewNumber p.2) ∧ (∀ v : View, v.code.toNat = viewNumber v) ∧
  ∀ b : Byte, Unassigned b.toNat → opcodeOf b = none

/-- Words and frames written out in spec/95_test_vectors.md (E2, E14, K2, K17, K27, CV1, CV10, DV1, DV4, DV11, P1) and in the
examples of R110, R182 and R184 decode to the instructions they stand for. -/
def Obligations.WrittenWordsDecode : Prop :=
  decodeCmd [0x0100006B, 0x00000003] = .instr (.encRead 0x006B 3) [] ∧
  decodeCmd [0x02000001, 0x00000002, 0x0000000A, 0x00000102] = .instr (.encWrite 0x0001 [0x000A, 0x0102]) [] ∧
  decodeCmd [0x140003F1] = .instr (.readF32 1009) [] ∧
  decodeCmd [0x19000010, 0x0000BEEF] = .instr (.writeU16 0x0010 0xBEEF) [] ∧
  decodeCmd [0x1C0003F1, 0x3F9E0419] = .instr (.writeF32 1009 0x3F9E0419) [] ∧
  decodeCmd [0x22020000, 0x00001234, 0x00005678] = .instr (.composeU32 [0x1234, 0x5678]) [] ∧
  decodeCmd [0x2C000000, 0x3F9E0419] = .instr (.decomposeF32 0x3F9E0419) [] ∧
  decodeCmd [0x31110000] = .instr (.setUnit 0x11) [] ∧
  decodeCmd [0x33000000] = .instr (.csrRead 0x00) [] ∧
  decodeCmd [0x34000007] = .instr (.expire 0x0007) [] ∧
  decodeCmd [0x35000000] = .instr .linkLost [] ∧
  decodeRequest [0x00, 0x01, 0x00, 0x00, 0x00, 0x06, 0x11, 0x03, 0x00, 0x6B, 0x00, 0x03] =
    .ok (.reqReadHolding 0x0001 0x11 0x006B 3) ∧
  decodeResponse [0x00, 0x00, 0x00, 0x00, 0x00, 0x07, 0x01, 0x03, 0x04, 0x12, 0x34, 0x56, 0x78] =
    .ok (.rspReadHolding 0x0000 0x01 [0x12, 0x34, 0x56, 0x78]) ∧
  decodeResponse [0x00, 0x00, 0x00, 0x00, 0x00, 0x06, 0x01, 0x10, 0x00, 0x10, 0x00, 0x01] =
    .ok (.rspWriteMultiple 0x0000 0x01 0x0010 0x0001) ∧
  decodeResponse [0x00, 0x00, 0x00, 0x00, 0x00, 0x03, 0x01, 0x83, 0x01] = .ok (.rspException 0x0000 0x01 0x03 0x01)

/-- Decode and encode agree on every well-formed instruction of the table, command or frame (30_encoding.md R70 to R78). -/
def Obligations.DecodeOfEncodeIsTheInstruction : Prop :=
  ∀ i : Instr, i.wf = true → decode (encode i) = .ok i

/-- R71: "a decoder can always tell where the next command starts": whatever words follow a command, exactly its own words are
read. -/
def Obligations.CommandStreamIsDelimited : Prop :=
  ∀ (i : Instr) (ws rest : List Word), i.wf = true → encode i = .cmd ws → decodeCmd (ws ++ rest) = .instr i rest

/-- The other direction of the command encoding: whatever decodes to a command is the one encoding of that command, so no
reserved field is ignored and no two words mean one command (R70, R71, R78, R79). -/
def Obligations.DecodedCommandWasItsEncoding : Prop :=
  ∀ (ws : List Word) (i : Instr) (rest : List Word), decodeCmd ws = .instr i rest →
    i.wf = true ∧ ∃ c, encode i = .cmd c ∧ ws = c ++ rest

/-- The other direction for response frames (R75 to R77, R83). -/
def Obligations.DecodedResponseWasItsEncoding : Prop :=
  ∀ (bs : List Byte) (i : Instr), decodeResponse bs = .ok i → i.wf = true ∧ encode i = .rx bs

/-- R79: an unassigned OP, or a nonzero field that the format marks 0, fails with IllegalCommand after all the command's words
(R71) are consumed, and changes nothing else. -/
def Obligations.IllegalCommandsChangeNothing : Prop :=
  ∀ (s : State) (ts : List Turn) (cw0 : Word) (ops : List Word), s.turns = .cmd :: ts → s.cmdIn = cw0 :: ops →
    (Unassigned (cw0.toNat / 2 ^ 24) → step s = .next (answer (taken s ts ops) (failed .illegalCommand))) ∧
    ∀ o : Opcode, opcodeOf (cw0.extractLsb' 24 8) = some o →
      ∀ n, n = operandWords o.format (cw0.extractLsb' 16 8) (ops.headD 0) → n ≤ ops.length →
        ¬ ReservedZero o.format (cw0.extractLsb' 16 8) (cw0.extractLsb' 0 16) (ops.take n) →
        step s = .next (answer (taken s ts (ops.drop n)) (failed .illegalCommand))

/-- R84: lines of the spec's assembly syntax give the words and bytes that spec/95_test_vectors.md lists beside them. -/
def Obligations.AssembledLinesGiveTheListedWords : Prop :=
  (Asm.assemble "ENC_WRITE 0x0001, 2, [0x000A, 0x0102]").map (fun l => (l.offer State.reset).cmdIn) =
    some [0x02000001, 0x00000002, 0x0000000A, 0x00000102] ∧
  (Asm.assemble "WRITE_F32 1009, 0x3F9E0419 ; P1, step 2").map (fun l => (l.offer State.reset).cmdIn) =
    some [0x1C0003F1, 0x3F9E0419] ∧
  (Asm.assemble "COMPOSE_U32 [0x1234, 0x5678]").map (fun l => (l.offer State.reset).cmdIn) =
    some [0x22020000, 0x00001234, 0x00005678] ∧
  (Asm.assemble "SET_UNIT 12").map (fun l => (l.offer State.reset).cmdIn) = some [0x310C0000] ∧
  (Asm.assemble "RX 00 01 83").map (fun l => ((l.offer State.reset).rxIn, (l.offer State.reset).turns)) =
    some ([0x00, 0x01, 0x83], [.rx, .rx, .rx])

/-! ## Steps -/

/-- A step on the command port's turn runs the instruction that the waiting words decode to, with the turn and its words
taken. -/
def Obligations.StepRunsTheDecodedCommand : Prop :=
  ∀ (s : State) (ts : List Turn) (i : Instr) (rest : List Word), s.turns = .cmd :: ts → decodeCmd s.cmdIn = .instr i rest →
    step s = exec i (taken s ts rest)

/-- A step that receives the last byte of a response frame runs the frame's instruction, with the byte counted and buffered and
the decoder DISPATCHED (R120, R126). -/
def Obligations.StepRunsTheCompletedFrame : Prop :=
  ∀ (s : State) (ts : List Turn) (b : Byte) (rest : List Byte) (i : Instr), s.turns = .rx :: ts → s.rxIn = b :: rest →
    s.dec = .awaitBody → decodeResponse (s.rxBuf ++ [b]) = .ok i →
    step s = exec i { received s ts b rest with dec := .dispatched }

/-- The model's choice (logs 2 and 3): with no turn a step changes nothing; a turn of a port with nothing whole to take passes. -/
def Obligations.StepWaitsWithNothingToTake : Prop :=
  (∀ s : State, s.turns = [] → step s = .next s) ∧
  (∀ (s : State) (ts : List Turn), s.turns = .rx :: ts → s.rxIn = [] → step s = .next { s with turns := ts }) ∧
  ∀ (s : State) (ts : List Turn), s.turns = .cmd :: ts → decodeCmd s.cmdIn = .incomplete → step s = .next { s with turns := ts }

/-- R230: the reset event gives every element its reset value and withdraws no output; then the block waits. Two clauses are the
model's choice and no rule's: that a reset uses up its own turn and leaves the later ones (`t.turns = ts`, logs 2 and 7), and
that a block with no turn waits by a step that changes nothing (`step t = .next t`, log 3). That the words and bytes waiting on
the input ports stay is log 7's choice too and is not claimed. -/
def Obligations.ResetEventSetsEveryElement : Prop :=
  ∀ (s : State) (ts : List Turn), s.turns = .reset :: ts → ∃ t, step s = .next t ∧
    t.nextTid = s.cfg.tidReset ∧ t.unit = { valid := false, id := 0x00 } ∧ t.pend = [] ∧ t.rxBuf = [] ∧ t.dec = .awaitHeader ∧
    t.txBytes = 0 ∧ t.rxBytes = 0 ∧ t.frameErrors = 0 ∧ t.unmatched = 0 ∧ t.out = s.out ∧ t.cfg = s.cfg ∧ t.turns = ts ∧
    (ts = [] → step t = .next t)

/-- R36, for every value of the OPEN parameters. -/
def Obligations.ResetValuesOfEveryElement : Prop :=
  ∀ c : Config, (State.resetWith c).nextTid = c.tidReset ∧ (State.resetWith c).unit = { valid := false, id := 0x00 } ∧
    (State.resetWith c).pend = [] ∧ (State.resetWith c).rxBuf = [] ∧ (State.resetWith c).dec = .awaitHeader ∧
    (State.resetWith c).txBytes = 0 ∧ (State.resetWith c).rxBytes = 0 ∧ (State.resetWith c).frameErrors = 0 ∧
    (State.resetWith c).unmatched = 0

/-- The state after reset is sound, for every value of the OPEN parameters. -/
def Obligations.ResetStateIsSound : Prop := ∀ c : Config, (State.resetWith c).Sound

/-- Every step keeps a sound state sound (R24, R27, R134), from any sound state, whatever the inputs. -/
def Obligations.SoundStateStaysSound : Prop := ∀ s t : State, s.Sound → step s = .next t → t.Sound

/-- From a sound state every step answers a next state: the model's faults stand only for states that the spec excludes (log 5;
R205). -/
def Obligations.SoundStateNeverStops : Prop := ∀ s : State, s.Sound → s.Steps

/-- R134, with R27, of the states between steps: the bounds hold in every sound state, and in the state that a step from one
leaves. -/
def Obligations.ReceiveBufferIsBounded : Prop :=
  (∀ s : State, s.Sound → BufferBounded s) ∧ ∀ s t : State, s.Sound → step s = .next t → BufferBounded t

/-- R35 and R208: the output ports are append-only, and R20: the parameters are configuration, which no step changes. -/
def Obligations.OutputsOnlyGrow : Prop :=
  ∀ s t : State, step s = .next t → (∃ added, t.out = s.out ++ added) ∧ t.cfg = s.cfg

/-- R80 and R207: "Every command produces exactly one result", and nothing else produces one (R120, R230). -/
def Obligations.OneResultPerCommand : Prop :=
  ∀ s t : State, step s = .next t →
    (∀ ts, s.turns = .cmd :: ts → decodeCmd s.cmdIn ≠ .incomplete → ∃ r, t.res = s.res ++ [r]) ∧
    ((∀ ts, s.turns ≠ .cmd :: ts) → t.res = s.res)

/-- R207: over every step but reset, entries neither vanish nor are completed twice: completions and entries together grow by
one for each frame sent (each admission) and else stay. -/
def Obligations.CompletionsBalanceEntries : Prop :=
  ∀ s t : State, (∀ ts, s.turns ≠ .reset :: ts) → step s = .next t →
    t.cpl.length + t.pend.length + frameCount s.out = s.cpl.length + s.pend.length + frameCount t.out

/-- R207, entry by entry: over every step but reset, an entry stays in the table and is not completed, or exactly one of the
completions that the step emits is its own and carries its context. -/
def Obligations.EveryEntryIsCompletedExactlyOnce : Prop :=
  ∀ s t : State, s.Sound → (∀ ts, s.turns ≠ .reset :: ts) → step s = .next t →
    ∃ new, t.cpl = s.cpl ++ new ∧ ∀ e ∈ s.pend,
      (e ∈ t.pend ∧ ∀ k ∈ new, k.tid ≠ e.tid) ∨
      ∃ k, new.filter (fun k => k.tid == e.tid) = [k] ∧
        k.unit = e.unit ∧ k.fc = e.fc ∧ k.view = e.view ∧ k.addr = e.addr ∧ k.count = e.count

/-- R24, R239: what can take an entry out of the pending table. -/
def Obligations.EntriesLeaveOnlyAsListed : Prop :=
  ∀ s t : State, step s = .next t → ∀ e ∈ s.pend, e ∉ t.pend →
    (∃ ts, s.turns = .reset :: ts) ∨
    (∃ ts b rest i, s.turns = .rx :: ts ∧ s.rxIn = b :: rest ∧ decodeResponse (s.rxBuf ++ [b]) = .ok i ∧
      responseTid i = some e.tid) ∨
    ∃ ts i rest, s.turns = .cmd :: ts ∧ decodeCmd s.cmdIn = .instr i rest ∧
      (i = .expire e.tid ∨ i = .linkLost ∨ ∃ r, requestOf i = some r ∧ e.tid = s.nextTid)

/-- R133: bytes leave RXBUF only at a completed frame, a framing error, LINK_LOST or reset. -/
def Obligations.PartialFramesAreNotConsumed : Prop :=
  ∀ s t : State, step s = .next t →
    t.rxBuf = s.rxBuf ∨
    (∃ ts b rest, s.turns = .rx :: ts ∧ s.rxIn = b :: rest ∧ t.rxBuf = s.rxBuf ++ [b]) ∨
    (t.rxBuf = [] ∧
      ((∃ ts b rest i, s.turns = .rx :: ts ∧ s.rxIn = b :: rest ∧ decodeResponse (s.rxBuf ++ [b]) = .ok i) ∨
       (∃ ts, s.turns = .rx :: ts ∧ t.frameErrors = s.frameErrors + 1) ∨
       (∃ ts rest, s.turns = .cmd :: ts ∧ decodeCmd s.cmdIn = .instr .linkLost rest) ∨
       ∃ ts, s.turns = .reset :: ts))

/-- R23: "Only SET_UNIT writes it", over every step but reset. -/
def Obligations.OnlySetUnitWritesTheUnit : Prop :=
  ∀ s t : State, (∀ ts, s.turns ≠ .reset :: ts) → step s = .next t → t.unit ≠ s.unit →
    ∃ ts u rest, s.turns = .cmd :: ts ∧ decodeCmd s.cmdIn = .instr (.setUnit u) rest ∧ t.unit = { valid := true, id := u }

/-- R203: the statuses of a command's result, over every step that takes a command. -/
def Obligations.ResultStatusesAreThoseListed : Prop :=
  ∀ (s t : State) (ts : List Turn), s.turns = .cmd :: ts → step s = .next t →
    (∀ i rest, decodeCmd s.cmdIn = .instr i rest → ∃ r, t.res = s.res ++ [r] ∧ r.status ∈ resultStatuses i) ∧
    ∀ why rest, decodeCmd s.cmdIn = .illegal why rest → ∃ r, t.res = s.res ++ [r] ∧ r.status = .illegalCommand

/-- R205, R80: a command whose result is not OK changes nothing but RES, and its result carries nothing but the status. -/
def Obligations.FailedCommandsChangeNothing : Prop :=
  ∀ (i : Instr) (s t : State), i.port = .cmd → exec i s = .next t →
    ∃ r, t.res = s.res ++ [r] ∧ (r.status ≠ .ok → t = answer s (failed r.status))

/-- R29 to R31 and R26: no command touches FRAME_ERRORS or UNMATCHED; of the commands only RESET_COUNTERS writes RX_BYTES and
only LINK_LOST writes RXBUF and DEC. -/
def Obligations.CommandsLeaveTheReceiver : Prop :=
  ∀ (i : Instr) (s t : State), i.port = .cmd → exec i s = .next t →
    t.frameErrors = s.frameErrors ∧ t.unmatched = s.unmatched ∧
    (i ≠ .resetCounters → t.rxBytes = s.rxBytes) ∧ (i ≠ .linkLost → t.rxBuf = s.rxBuf ∧ t.dec = s.dec)

/-! ## Encode commands -/

/-- R100, R204: the first two checks of the encode commands, in their order; a refused command changes nothing but RES. -/
def Obligations.EncodeCommandsCheckUnitThenCount : Prop :=
  ∀ (i : Instr) (r : Request) (s : State), requestOf i = some r →
    (s.unit.valid = false → exec i s = .next (answer s (failed .deviceIDNotSet))) ∧
    (s.unit.valid = true → ¬ CountAdmitted r → exec i s = .next (answer s (failed .dataOverflow)))

/-- R103: the table is full. -/
def Obligations.FullTableRefusesEncodeCommands : Prop :=
  ∀ (i : Instr) (r : Request) (s : State), requestOf i = some r → s.unit.valid = true → CountAdmitted r →
    s.pend.length = s.cfg.maxPending → (∀ e ∈ s.pend, e.tid ≠ s.nextTid) →
    exec i s = .next (answer s (failed .pendingFull))

/-- R100 for the five commands of function code 0x03, with room in the table: the frame of R73, the entry of R105, the counters,
the result, and nothing else. -/
def Obligations.AdmittedReadsNextState : Prop :=
  ∀ (i : Instr) (r : Request) (s : State), requestOf i = some r → r.fc = .readHolding → s.unit.valid = true → CountAdmitted r →
    (∀ e ∈ s.pend, e.tid ≠ s.nextTid) → s.pend.length ≠ s.cfg.maxPending →
    exec i s = .next (afterAdmission s r s.pend [])

/-- R100 for the five commands of function code 0x10, with room in the table: the frame of R74 with the high word of a 32-bit
value first (R51). -/
def Obligations.AdmittedWritesNextState : Prop :=
  ∀ (i : Instr) (r : Request) (s : State), requestOf i = some r → r.fc = .writeMultiple → s.unit.valid = true →
    CountAdmitted r → (∀ e ∈ s.pend, e.tid ≠ s.nextTid) → s.pend.length ≠ s.cfg.maxPending →
    exec i s = .next (afterAdmission s r s.pend [])

/-- R102: transaction-ID reuse, whatever the table's size. -/
def Obligations.ReusedTransactionIdIsEvicted : Prop :=
  ∀ (i : Instr) (r : Request) (s : State) (e : Entry), requestOf i = some r → s.unit.valid = true → CountAdmitted r →
    Distinct s → e ∈ s.pend → e.tid = s.nextTid →
    exec i s = .next (afterAdmission s r (others s e.tid) [.cpl (record e .timeout 0 0 0 0 e.wvals)])

/-- R101: an admitted encode command uses NEXT_TID and advances it modulo 2^16; a refused one does not. -/
def Obligations.TransactionIdsAreAllocatedInTurn : Prop :=
  ∀ (i : Instr) (r : Request) (s t : State), requestOf i = some r → exec i s = .next t →
    (t.res = s.res ++ [{ status := .ok, tid := s.nextTid, value := 0, words := [] }] ∧
      entryOf s r ∈ t.pend ∧ t.nextTid.toNat = (s.nextTid.toNat + 1) % 2 ^ 16) ∨
    (∃ st, st ≠ .ok ∧ t.res = s.res ++ [failed st] ∧ t.nextTid = s.nextTid)

/-- R105: an entry is there before the step, unchanged, or is the snapshot that an admitted encode command takes. -/
def Obligations.EntriesAreSnapshots : Prop :=
  ∀ s t : State, step s = .next t → ∀ e ∈ t.pend,
    e ∈ s.pend ∨
    ∃ ts i r rest, s.turns = .cmd :: ts ∧ decodeCmd s.cmdIn = .instr i rest ∧ requestOf i = some r ∧ CountAdmitted r ∧
      e = entryOf s r

/-- R22: only an admitted encode command writes NEXT_TID, over every step but reset. -/
def Obligations.OnlyAdmissionsAdvanceTheTransactionId : Prop :=
  ∀ s t : State, (∀ ts, s.turns ≠ .reset :: ts) → step s = .next t → t.nextTid ≠ s.nextTid →
    ∃ ts i r rest, s.turns = .cmd :: ts ∧ decodeCmd s.cmdIn = .instr i rest ∧ requestOf i = some r ∧ entryOf s r ∈ t.pend ∧
      t.nextTid = s.nextTid + 1

/-- The request frames of R73 and R74 byte by byte, and TX_BYTES (R106). That a request row is an instruction whose meaning is
this emission and nothing else is the model's choice (log 4): `step` never fetches one, and an admitted encode command makes the
same emission in its own step (AdmittedReadsNextState, AdmittedWritesNextState). -/
def Obligations.RequestFramesOnTheWire : Prop :=
  (∀ (s : State) (tid : Half) (unit : Byte) (addr count : Half),
    exec (.reqReadHolding tid unit addr count) s =
      .next { s with
        txBytes := s.txBytes + 12
        out := s.out ++ [.tx (readRequest tid unit addr count)] }) ∧
  ∀ (s : State) (tid : Half) (unit : Byte) (addr : Half) (values : List Half), values.length ≤ 123 →
    exec (.reqWriteMultiple tid unit addr values) s =
      .next { s with
        txBytes := s.txBytes + BitVec.ofNat 32 (13 + 2 * values.length)
        out := s.out ++ [.tx (writeRequest tid unit addr values)] }

/-- R106: TX_BYTES counts every emitted byte; nothing but an encode command (by the frame it emits) puts anything on TX. -/
def Obligations.TransmittedBytesAreCounted : Prop :=
  (∀ (i : Instr) (s t : State), exec i s = .next t → i ≠ .resetCounters →
    t.txBytes = s.txBytes + BitVec.ofNat 32 (t.tx.length - s.tx.length)) ∧
  (∀ (i : Instr) (r : Request) (s t : State), requestOf i = some r → exec i s = .next t →
    t.tx = s.tx ∨ ∃ f, t.tx = s.tx ++ f ∧ f.length = frameLength r) ∧
  (∀ (i : Instr) (s t : State), requestOf i = none → i.port ≠ .tx → exec i s = .next t → t.tx = s.tx) ∧
  ∀ s t : State, (∀ ts, s.turns ≠ .cmd :: ts) → step s = .next t → t.tx = s.tx

/-! ## The register codec -/

/-- R170 to R173: COMPOSE with the view's word count answers the value and changes nothing else; with another count it fails
UnexpectedRegisterCount. -/
def Obligations.ComposeCommandsAnswer : Prop :=
  (∀ (s : State) (w : Half), exec (.composeU16 [w]) s =
    .next (answer s { status := .ok, tid := 0, value := BitVec.ofNat 32 w.toNat, words := [] })) ∧
  (∀ (s : State) (i : Instr) (h l : Half), i ∈ [Instr.composeU32 [h, l], .composeI32 [h, l], .composeF32 [h, l]] → exec i s =
    .next (answer s { status := .ok, tid := 0, value := BitVec.ofNat 32 (65536 * h.toNat + l.toNat), words := [] })) ∧
  (∀ (s : State) (ws : List Half), ws.length ≠ 1 →
    exec (.composeU16 ws) s = .next (answer s (failed .unexpectedRegisterCount))) ∧
  ∀ (s : State) (i : Instr) (ws : List Half), ws.length ≠ 2 → i ∈ [Instr.composeU32 ws, .composeI32 ws, .composeF32 ws] →
    exec i s = .next (answer s (failed .unexpectedRegisterCount))

/-- R174 to R177: DECOMPOSE answers the words, the high word first, and changes nothing else. -/
def Obligations.DecomposeCommandsAnswer : Prop :=
  (∀ (s : State) (v : Half), exec (.decomposeU16 v) s =
    .next (answer s { status := .ok, tid := 0, value := 0, words := [v] })) ∧
  ∀ (s : State) (i : Instr) (v : Word), i ∈ [Instr.decomposeU32 v, .decomposeI32 v, .decomposeF32 v] →
    exec i s = .next (answer s { status := .ok, tid := 0, value := 0, words := twoWords v })

/-- R155: decompose and compose undo each other, for every pattern and every pair of words. -/
def Obligations.CodecRoundTrips : Prop :=
  (∀ (view : View) (v : Word), view ∈ [View.u32, .i32, .f32] → viewValue view (decompose32 v) = v) ∧
  ∀ (view : View) (w0 w1 : Half), view ∈ [View.u32, .i32, .f32] → decompose32 (viewValue view [w0, w1]) = [w0, w1]

/-- R150: ViewValue of a word list of the length the view needs. -/
def Obligations.ViewValuesAsWritten : Prop :=
  (∀ ws : List Half, viewValue .raw ws = 0) ∧
  (∀ w : Half, (viewValue .u16 [w]).toNat = w.toNat) ∧
  ∀ (view : View) (w0 w1 : Half), view ∈ [View.u32, .i32, .f32] →
    viewValue view [w0, w1] = (w0.setWidth 32 <<< 16) ||| w1.setWidth 32 ∧
    (viewValue view [w0, w1]).toNat = 65536 * w0.toNat + w1.toNat

/-- R153: every pattern is a valid Int32 and every Int32 has one pattern. -/
def Obligations.Int32PatternsAreTwosComplement : Prop :=
  (∀ v : Word, int32Of v = if v.toNat < 2 ^ 31 then (v.toNat : Int) else v.toNat - 2 ^ 32) ∧
  (∀ v : Word, patternOfInt32 (int32Of v) = v) ∧
  ∀ i : Int, -(2 ^ 31) ≤ i → i < 2 ^ 31 → int32Of (patternOfInt32 i) = i

/-! ## Control commands, as instructions and from their words -/

/-- R180. -/
def Obligations.SetUnitSetsTheUnit : Prop :=
  (∀ (s : State) (u : Byte),
    exec (.setUnit u) s = .next (answer { s with unit := { valid := true, id := u } } { status := .ok })) ∧
  ∀ (s : State) (ts : List Turn) (w : Word) (rest : List Word), s.turns = .cmd :: ts → s.cmdIn = w :: rest →
    w.extractLsb' 24 8 = 0x31 →
    step s = .next (if w.extractLsb' 0 16 = 0
      then answer { taken s ts rest with unit := { valid := true, id := w.extractLsb' 16 8 } } { status := .ok }
      else answer (taken s ts rest) (failed .illegalCommand))

/-- R181. -/
def Obligations.ResetCountersClearsTheByteCounters : Prop :=
  (∀ s : State, exec .resetCounters s = .next (answer { s with txBytes := 0, rxBytes := 0 } { status := .ok })) ∧
  ∀ (s : State) (ts : List Turn) (w : Word) (rest : List Word), s.turns = .cmd :: ts → s.cmdIn = w :: rest →
    w.extractLsb' 24 8 = 0x32 →
    step s = .next (if w.extractLsb' 0 24 = 0
      then answer { taken s ts rest with txBytes := 0, rxBytes := 0 } { status := .ok }
      else answer (taken s ts rest) (failed .illegalCommand))

/-- R182 with the values of R33 (in a state whose buffer and table are within their bounds, as every sound state's are). -/
def Obligations.CsrReadAnswersTheRegister : Prop :=
  ∀ s : State, s.rxBuf.length ≤ 260 → s.pend.length ≤ 65536 →
    (∀ c : Byte, c.toNat ≤ 0x08 → exec (.csrRead c) s =
      .next (answer s { status := .ok, tid := 0, value := BitVec.ofNat 32 (csrValue s c.toNat), words := [] })) ∧
    (∀ c : Byte, 0x08 < c.toNat → exec (.csrRead c) s = .next (answer s (failed .illegalCommand))) ∧
    ∀ (ts : List Turn) (w : Word) (rest : List Word), s.turns = .cmd :: ts → s.cmdIn = w :: rest → w.extractLsb' 24 8 = 0x33 →
      step s = if w.extractLsb' 0 16 = 0 then exec (.csrRead (w.extractLsb' 16 8)) (taken s ts rest)
        else .next (answer (taken s ts rest) (failed .illegalCommand))

/-- R183. -/
def Obligations.ExpireCompletesWithTimeout : Prop :=
  (∀ (s : State) (e : Entry), Distinct s → e ∈ s.pend → exec (.expire e.tid) s =
    .next { s with
      pend := others s e.tid
      out := s.out ++ [.cpl (record e .timeout 0 0 0 0 e.wvals), .res { status := .ok, tid := e.tid }] }) ∧
  (∀ (s : State) (tid : Half), (∀ e ∈ s.pend, e.tid ≠ tid) → exec (.expire tid) s = .next (answer s (failed .noEntry))) ∧
  ∀ (s : State) (ts : List Turn) (w : Word) (rest : List Word), s.turns = .cmd :: ts → s.cmdIn = w :: rest →
    w.extractLsb' 24 8 = 0x34 →
    step s = if w.extractLsb' 16 8 = 0 then exec (.expire (w.extractLsb' 0 16)) (taken s ts rest)
      else .next (answer (taken s ts rest) (failed .illegalCommand))

/-- R184. -/
def Obligations.LinkLostFailsEveryEntry : Prop :=
  (∀ s : State, exec .linkLost s =
    .next { s with
      pend := []
      rxBuf := []
      dec := .awaitHeader
      out := s.out ++ s.pend.map (fun e => Output.cpl (record e .connectionLost 0 0 0 0 e.wvals)) ++
        [.res { status := .ok }] }) ∧
  ∀ (s : State) (ts : List Turn) (w : Word) (rest : List Word), s.turns = .cmd :: ts → s.cmdIn = w :: rest →
    w.extractLsb' 24 8 = 0x35 →
    step s = if w.extractLsb' 0 24 = 0 then exec .linkLost (taken s ts rest)
      else .next (answer (taken s ts rest) (failed .illegalCommand))

/-! ## The receive step -/

/-- R121: fewer than 8 bytes are only appended and counted. -/
def Obligations.HeaderBytesAreOnlyBuffered : Prop :=
  ∀ (s : State) (ts : List Turn) (b : Byte) (rest : List Byte), s.turns = .rx :: ts → s.rxIn = b :: rest →
    s.dec = .awaitHeader → s.rxBuf.length + 1 < 8 → step s = .next (received s ts b rest)

/-- R123 and R124: the header check, at the 8th byte; a header that fails is discarded and counted, and completes nothing. -/
def Obligations.HeaderIsCheckedAtTheEighthByte : Prop :=
  ∀ (s : State) (ts : List Turn) (t1 t0 p1 p0 l1 l0 u f : Byte) (rest : List Byte), s.turns = .rx :: ts →
    s.rxIn = f :: rest → s.dec = .awaitHeader → s.rxBuf = [t1, t0, p1, p0, l1, l0, u] →
    (HeaderPasses (be p1 p0) (be l1 l0) f → step s = .next { received s ts f rest with dec := .awaitBody }) ∧
    (¬ HeaderPasses (be p1 p0) (be l1 l0) f → step s = .next (discarded (received s ts f rest)))

/-- R125: the byte count of a read response, at the 9th byte. -/
def Obligations.ByteCountIsCheckedAtTheNinthByte : Prop :=
  ∀ (s : State) (ts : List Turn) (t1 t0 p1 p0 l1 l0 u bc : Byte) (rest : List Byte), s.turns = .rx :: ts →
    s.rxIn = bc :: rest → s.dec = .awaitBody → s.rxBuf = [t1, t0, p1, p0, l1, l0, u, 0x03] →
    (be l1 l0 ≠ 3 + bc.toNat → step s = .next (discarded (received s ts bc rest))) ∧
    (be l1 l0 = 3 + bc.toNat → bc.toNat ≠ 0 → step s = .next (received s ts bc rest))

/-- R127: a response resolves exactly the entry of its transaction ID, or is dropped and counted. -/
def Obligations.ResponsesMatchByTransactionId : Prop :=
  ∀ (s : State) (i : Instr) (tid : Half), responseTid i = some tid →
    ((∀ e ∈ s.pend, e.tid ≠ tid) → exec i s = .next (dropped s)) ∧
    ∀ e ∈ s.pend, Distinct s → e.tid = tid → ∃ k : Completion, k.tid = tid ∧ exec i s = .next (resolved s tid k)

/-- R129, with the checks of R128 before it: a read response for an entry. The words are the data's bytes in pairs, high byte
first. -/
def Obligations.ReadResponseCompletesItsEntry : Prop :=
  ∀ (s : State) (e : Entry) (unit : Byte) (data : List Byte), Distinct s → e ∈ s.pend →
    (unit ≠ e.unit → exec (.rspReadHolding e.tid unit data) s =
      .next (resolved s e.tid (record e .badServer 0 0 0 0 e.wvals))) ∧
    (unit = e.unit → e.fc ≠ .readHolding → exec (.rspReadHolding e.tid unit data) s =
      .next (resolved s e.tid (record e .invalidData 0 0 0 0 e.wvals))) ∧
    (unit = e.unit → e.fc = .readHolding → data.length ≠ 2 * e.count.toNat → exec (.rspReadHolding e.tid unit data) s =
      .next (resolved s e.tid (record e .unexpectedRegisterCount 0 0 0 0 e.wvals))) ∧
    ∀ words : List Half, unit = e.unit → e.fc = .readHolding → e.sound = true → words.length = e.count.toNat →
      data = words.flatMap (fun w => [hi w, lo w]) → exec (.rspReadHolding e.tid unit data) s =
      .next (resolved s e.tid (record e .ok 0 0 0 (typedValue e.view words) words))

/-- R130, with the checks of R128 before it: a write response for an entry. The echoed address is reported and not compared. -/
def Obligations.WriteResponseCompletesItsEntry : Prop :=
  ∀ (s : State) (e : Entry) (unit : Byte) (ea ec : Half), Distinct s → e ∈ s.pend →
    (unit ≠ e.unit → exec (.rspWriteMultiple e.tid unit ea ec) s =
      .next (resolved s e.tid (record e .badServer 0 ea ec 0 e.wvals))) ∧
    (unit = e.unit → e.fc ≠ .writeMultiple → exec (.rspWriteMultiple e.tid unit ea ec) s =
      .next (resolved s e.tid (record e .invalidData 0 ea ec 0 e.wvals))) ∧
    (unit = e.unit → e.fc = .writeMultiple → ec ≠ e.count → exec (.rspWriteMultiple e.tid unit ea ec) s =
      .next (resolved s e.tid (record e .unexpectedRegisterCount 0 ea ec 0 e.wvals))) ∧
    (unit = e.unit → e.fc = .writeMultiple → ec = e.count → exec (.rspWriteMultiple e.tid unit ea ec) s =
      .next (resolved s e.tid (record e .ok 0 ea ec 0 e.wvals)))

/-- R131, with the checks of R128 before it: an exception response for an entry; the raw code is always kept. -/
def Obligations.ExceptionResponseCompletesItsEntry : Prop :=
  ∀ (s : State) (e : Entry) (unit : Byte) (fc7 : BitVec 7) (x : Byte), Distinct s → e ∈ s.pend →
    (unit ≠ e.unit → exec (.rspException e.tid unit fc7 x) s =
      .next (resolved s e.tid (record e .badServer x 0 0 0 e.wvals))) ∧
    (unit = e.unit → fc7.toNat ≠ fcNumber e.fc → exec (.rspException e.tid unit fc7 x) s =
      .next (resolved s e.tid (record e .invalidData x 0 0 0 e.wvals))) ∧
    (unit = e.unit → fc7.toNat = fcNumber e.fc → exec (.rspException e.tid unit fc7 x) s =
      .next (resolved s e.tid (record e (excKind x) x 0 0 0 e.wvals)))

/-- A response frame delivered byte by byte, in as many receive steps as it has bytes, is decoded exactly as its instruction at
its last byte (R120, R126: "a frame split over any number of steps is decoded the same"). -/
def Obligations.FrameBytesDecodeAsTheWholeFrame : Prop :=
  ∀ (i : Instr) (f : List Byte) (s : State) (ts : List Turn) (rest : List Byte), i.wf = true → encode i = .rx f →
    s.dec = .awaitHeader → s.rxBuf = [] → s.turns = List.replicate f.length .rx ++ ts → s.rxIn = f ++ rest →
    State.run f.length s =
      exec i { s with
        turns := ts
        rxIn := rest
        rxBytes := s.rxBytes + BitVec.ofNat 32 f.length
        rxBuf := f
        dec := .dispatched }

/-- R234: timeout against response. Whichever comes first completes the entry; the other changes no entry and completes
nothing. -/
def Obligations.TimeoutAgainstResponse : Prop :=
  ∀ (s : State) (e : Entry) (i : Instr), Distinct s → e ∈ s.pend → responseTid i = some e.tid →
    (∃ t u, exec (.expire e.tid) s = .next t ∧ exec i t = .next u ∧ u.cpl = s.cpl ++ [record e .timeout 0 0 0 0 e.wvals] ∧
      u.unmatched = s.unmatched + 1 ∧ u.pend = others s e.tid) ∧
    ∃ t u k, exec i s = .next t ∧ exec (.expire e.tid) t = .next u ∧ u.cpl = s.cpl ++ [k] ∧ k.tid = e.tid ∧
      u.res = s.res ++ [failed .noEntry] ∧ u.unmatched = s.unmatched ∧ u.pend = others s e.tid

/-! ## Codes and records -/

/-- R201: the exception-code map. -/
def Obligations.ExceptionCodesMapInOrder : Prop :=
  (∀ x : Byte, 1 ≤ x.toNat → x.toNat ≤ 0x0B → (excKind x).code = x) ∧
  (∀ x : Byte, x = 0x00 ∨ 0x0C ≤ x.toNat → excKind x = .invalidExceptionCode) ∧
  [excKind 0x01, excKind 0x02, excKind 0x03, excKind 0x04, excKind 0x05, excKind 0x06, excKind 0x07, excKind 0x08,
    excKind 0x09, excKind 0x0A, excKind 0x0B] =
  [.invalidFunction, .invalidAddress, .invalidValue, .serverFailure, .ack, .serverBusy, .nack, .memoryParity, .notDefined,
    .gatewayPathUnavailable, .noResponse]

/-- R200: the status numbers, each of one status. -/
def Obligations.StatusNumbersAreTheTable : Prop :=
  (∀ p ∈ statusNumbers, p.1.code.toNat = p.2) ∧ (∀ st : Status, st ∈ statusNumbers.map Prod.fst) ∧
  ∀ a b : Status, a.code = b.code → a = b

/-- R80 and R81: the packing of records into words, in the spec's shifts, with the view codes of R25 and the function codes of
R24 (the status numbers are those of StatusNumbersAreTheTable). -/
def Obligations.RecordsPackAsWritten : Prop :=
  (∀ r : Result, r.words.length ≤ 2 → r.pack =
    [(r.status.code.setWidth 32 <<< 24) ||| (BitVec.ofNat 32 r.words.length <<< 16) ||| r.tid.setWidth 32, r.value] ++
      r.words.map (fun w => w.setWidth 32)) ∧
  ∀ k : Completion, k.words.length ≤ 125 → k.pack =
    [(k.status.code.setWidth 32 <<< 24) ||| (k.exc.setWidth 32 <<< 16) ||| k.tid.setWidth 32,
     (k.unit.setWidth 32 <<< 24) ||| (BitVec.ofNat 32 (fcNumber k.fc) <<< 16) ||| (BitVec.ofNat 32 (viewNumber k.view) <<< 8) |||
       BitVec.ofNat 32 k.words.length,
     (k.addr.setWidth 32 <<< 16) ||| k.count.setWidth 32, k.value,
     (k.echoAddr.setWidth 32 <<< 16) ||| k.echoCount.setWidth 32] ++ k.words.map (fun w => w.setWidth 32)

/-! ## The receive step, in the body of a frame -/

/-- R120, in AWAIT_BODY: a byte that is neither the 9th of a read response nor the last of its frame is only appended and
counted. -/
def Obligations.BodyBytesAreOnlyBuffered : Prop :=
  ∀ (s : State) (ts : List Turn) (b t1 t0 p1 p0 l1 l0 u f : Byte) (body rest : List Byte), s.turns = .rx :: ts →
    s.rxIn = b :: rest → s.dec = .awaitBody → s.rxBuf ++ [b] = t1 :: t0 :: p1 :: p0 :: l1 :: l0 :: u :: f :: body →
    ¬ (f = 0x03 ∧ (s.rxBuf ++ [b]).length = 9) → (s.rxBuf ++ [b]).length ≠ 6 + be l1 l0 →
    step s = .next (received s ts b rest)
end

