-- ==== Sys2Proof/Laws/Decode.lean ====
section
/-! SUPPORT. The fields of command words, the halves of operand words, the bytes of frames: what the encoder writes, the decoder
reads. -/

namespace Sys2Proof

/-! ## The counts of WellFormed, in arithmetic -/

theorem fitsHalf_iff (n : Nat) : fitsHalf n = true ↔ n < 65536 := by simp [fitsHalf]

theorem fitsByte_iff (n : Nat) : fitsByte n = true ↔ n < 256 := by simp [fitsByte]

theorem readCountOk_iff (n : Nat) : readCountOk n = true ↔ 1 ≤ n ∧ n ≤ 125 := by
  unfold readCountOk Config.maxRead; simp

theorem writeCountOk_iff (n : Nat) : writeCountOk n = true ↔ 1 ≤ n ∧ n ≤ 123 := by
  unfold writeCountOk Config.maxWrite; simp

theorem byteCountOk_iff (n : Nat) : byteCountOk n = true ↔ 3 + n ≤ 254 := by
  unfold byteCountOk Config.maxLen; simp

/-! ## The two parts of a concatenation -/

theorem extract_append_high {m n : Nat} (a : BitVec m) (b : BitVec n) : (a ++ b).extractLsb' n m = a := by
  apply BitVec.eq_of_getLsbD_eq
  intro i hi
  simp [BitVec.getLsbD_append, hi]

theorem extract_append_low {m n : Nat} (a : BitVec m) (b : BitVec n) : (a ++ b).extractLsb' 0 n = b := by
  apply BitVec.eq_of_getLsbD_eq
  intro i hi
  simp [BitVec.getLsbD_append, hi]

theorem append_extract {m n : Nat} (x : BitVec (m + n)) : x.extractLsb' n m ++ x.extractLsb' 0 n = x := by
  apply BitVec.eq_of_getLsbD_eq
  intro i hi
  simp only [BitVec.getLsbD_append, BitVec.getLsbD_extractLsb']
  by_cases h : i < n
  · simp [h]
  · have e : n + (i - n) = i := by omega
    have l : i - n < m := by omega
    simp [h, e, l]

theorem extract_extract {w : Nat} (x : BitVec w) (a m b n : Nat) (h : b + n ≤ m) :
    (x.extractLsb' a m).extractLsb' b n = x.extractLsb' (a + b) n := by
  apply BitVec.eq_of_getLsbD_eq
  intro i hi
  have l : b + i < m := by omega
  simp [hi, l, Nat.add_assoc]

/-! ## Command words (R70) -/

@[simp] theorem argField_commandWord (o : Opcode) (sub : Byte) (arg : Half) : argField (commandWord o sub arg) = arg :=
  extract_append_low (o.op ++ sub) arg

theorem subField_eq (w : Word) : subField w = (w.extractLsb' 16 16).extractLsb' 0 8 :=
  (extract_extract w 16 16 0 8 (by decide)).symm

theorem opField_eq (w : Word) : opField w = (w.extractLsb' 16 16).extractLsb' 8 8 :=
  (extract_extract w 16 16 8 8 (by decide)).symm

theorem high_commandWord (o : Opcode) (sub : Byte) (arg : Half) :
    (commandWord o sub arg).extractLsb' 16 16 = o.op ++ sub :=
  extract_append_high (o.op ++ sub) arg

@[simp] theorem opField_commandWord (o : Opcode) (sub : Byte) (arg : Half) : opField (commandWord o sub arg) = o.op := by
  rw [opField_eq, high_commandWord]
  exact extract_append_high o.op sub

@[simp] theorem subField_commandWord (o : Opcode) (sub : Byte) (arg : Half) : subField (commandWord o sub arg) = sub := by
  rw [subField_eq, high_commandWord]
  exact extract_append_low o.op sub

/-- A command word is its three fields. -/
theorem commandWord_fields (o : Opcode) (w : Word) (h : o.op = opField w) : commandWord o (subField w) (argField w) = w := by
  have high : opField w ++ subField w = w.extractLsb' 16 16 := by
    rw [opField_eq, subField_eq]
    exact append_extract (m := 8) (n := 8) (w.extractLsb' 16 16)
  unfold commandWord
  rw [h, high]
  exact append_extract (m := 16) (n := 16) w

@[simp] theorem hiHalf_halfWord (v : Half) : hiHalf (halfWord v) = 0 := extract_append_high (0 : Half) v

@[simp] theorem loHalf_halfWord (v : Half) : loHalf (halfWord v) = v := extract_append_low (0 : Half) v

theorem halfWord_toNat (v : Half) : (halfWord v).toNat = v.toNat := by
  rw [halfWord, BitVec.toNat_append]; simp

theorem halfWord_loHalf (w : Word) (h : hiHalf w = 0) : halfWord (loHalf w) = w := by
  have e : halfWord (loHalf w) = hiHalf w ++ loHalf w := by rw [h]; rfl
  rw [e]
  exact append_extract (m := 16) (n := 16) w

@[simp] theorem halves_map_halfWord (vs : List Half) : halves (vs.map halfWord) = some vs := by
  induction vs with
  | nil => rfl
  | cons v vs ih => simp [halves, ih]

theorem halves_eq_some {ws : List Word} : ∀ {vs : List Half}, halves ws = some vs → ws = vs.map halfWord := by
  induction ws with
  | nil => intro vs h; simp [halves] at h; subst h; rfl
  | cons w ws ih =>
    intro vs h
    simp only [halves] at h
    split at h
    · rename_i hw
      cases hh : halves ws with
      | none => simp [hh] at h
      | some us =>
        simp [hh] at h
        subst h
        simp [ih hh, halfWord_loHalf w hw]
    · simp at h

/-- Reserved bits are what makes operand words of 16-bit values unreadable (R79). -/
theorem halves_isSome_iff (ws : List Word) : (halves ws).isSome = true ↔ ∀ w ∈ ws, hiHalf w = 0 := by
  induction ws with
  | nil => simp [halves]
  | cons w ws ih =>
    by_cases hw : hiHalf w = 0
    · rw [halves, if_pos hw, Option.isSome_map, ih]
      constructor
      · intro h v hv
        rcases List.mem_cons.mp hv with rfl | hv
        · exact hw
        · exact h v hv
      · intro h v hv
        exact h v (List.mem_cons_of_mem w hv)
    · rw [halves, if_neg hw]
      constructor
      · intro h; cases h
      · intro h; exact absurd (h w (List.mem_cons_self)) hw

/-! ## The opcode map (R72) -/

@[simp] theorem opcodeOf_op (o : Opcode) : opcodeOf o.op = some o := by cases o <;> decide

theorem op_of_opcodeOf {b : Byte} {o : Opcode} (h : opcodeOf b = some o) : o.op = b := by
  have := List.find?_some h
  simpa using this

/-! ## The command formats (R71): which fields and operand words give an instruction -/

theorem formA_eq_some {mk : Half → Instr} {sub : Byte} {arg : Half} {i : Instr} :
    formA mk sub arg = some i ↔ sub = 0 ∧ mk arg = i := by
  unfold formA
  by_cases h : sub = 0
  · rw [if_pos h]; simp [h]
  · rw [if_neg h]; simp only [h, false_and, iff_false]; intro hc; cases hc

theorem formU_eq_some {mk : Byte → Instr} {sub : Byte} {arg : Half} {i : Instr} :
    formU mk sub arg = some i ↔ arg = 0 ∧ mk sub = i := by
  unfold formU
  by_cases h : arg = 0
  · rw [if_pos h]; simp [h]
  · rw [if_neg h]; simp only [h, false_and, iff_false]; intro hc; cases hc

theorem formN_eq_some {j : Instr} {sub : Byte} {arg : Half} {i : Instr} :
    formN j sub arg = some i ↔ (sub = 0 ∧ arg = 0) ∧ j = i := by
  unfold formN
  by_cases h : sub = 0 ∧ arg = 0
  · rw [if_pos h]; simp [h]
  · rw [if_neg h]; simp only [h, false_and, iff_false]; intro hc; cases hc

theorem formNW_eq_some {mk : List Half → Instr} {arg : Half} {ops : List Word} {i : Instr} :
    formNW mk arg ops = some i ↔ arg = 0 ∧ ∃ ws : List Half, ops = ws.map halfWord ∧ mk ws = i := by
  unfold formNW
  by_cases h : arg = 0
  · rw [if_pos h, Option.map_eq_some_iff]
    constructor
    · rintro ⟨ws, hw, rfl⟩
      exact ⟨h, ws, halves_eq_some hw, rfl⟩
    · rintro ⟨-, ws, rfl, rfl⟩
      exact ⟨ws, halves_map_halfWord ws, rfl⟩
  · rw [if_neg h]
    constructor
    · intro hc; cases hc
    · intro hc; exact absurd hc.1 h

theorem formAV16_eq_some {mk : Half → Half → Instr} {sub : Byte} {arg : Half} {ops : List Word} {i : Instr} :
    formAV16 mk sub arg ops = some i ↔ sub = 0 ∧ ∃ v : Half, ops = [halfWord v] ∧ mk arg v = i := by
  unfold formAV16
  by_cases h : sub = 0
  · rw [if_pos h]
    constructor
    · intro hh
      split at hh
      · rename_i v hv
        exact ⟨h, v, halves_eq_some hv, by simpa using hh⟩
      · cases hh
    · rintro ⟨-, v, rfl, rfl⟩
      simp [halves]
  · rw [if_neg h]
    constructor
    · intro hc; cases hc
    · intro hc; exact absurd hc.1 h

theorem formACD_eq_some {mk : Half → List Half → Instr} {sub : Byte} {arg : Half} {ops : List Word} {i : Instr} :
    formACD mk sub arg ops = some i ↔
      sub = 0 ∧ ∃ (c : Half) (vs : List Half), ops = halfWord c :: vs.map halfWord ∧ mk arg vs = i := by
  unfold formACD
  by_cases h : sub = 0
  · rw [if_pos h]
    constructor
    · intro hh
      split at hh
      · rename_i c vs hv
        exact ⟨h, c, vs, halves_eq_some hv, by simpa using hh⟩
      · cases hh
    · rintro ⟨-, c, vs, rfl, rfl⟩
      simp [halves]
  · rw [if_neg h]
    constructor
    · intro hc; cases hc
    · intro hc; exact absurd hc.1 h

theorem formAV32_eq_some {mk : Half → Word → Instr} {sub : Byte} {arg : Half} {ops : List Word} {i : Instr} :
    formAV32 mk sub arg ops = some i ↔ sub = 0 ∧ ∃ v : Word, ops = [v] ∧ mk arg v = i := by
  unfold formAV32
  by_cases h : sub = 0
  · rw [if_pos h]
    constructor
    · intro hh
      split at hh
      · exact ⟨h, _, rfl, by simpa using hh⟩
      · cases hh
    · rintro ⟨-, v, rfl, rfl⟩
      rfl
  · rw [if_neg h]
    constructor
    · intro hc; cases hc
    · intro hc; exact absurd hc.1 h

theorem formV16_eq_some {mk : Half → Instr} {sub : Byte} {arg : Half} {ops : List Word} {i : Instr} :
    formV16 mk sub arg ops = some i ↔ (sub = 0 ∧ arg = 0) ∧ ∃ v : Half, ops = [halfWord v] ∧ mk v = i := by
  unfold formV16
  by_cases h : sub = 0 ∧ arg = 0
  · rw [if_pos h]
    constructor
    · intro hh
      split at hh
      · rename_i v hv
        exact ⟨h, v, halves_eq_some hv, by simpa using hh⟩
      · cases hh
    · rintro ⟨-, v, rfl, rfl⟩
      simp [halves]
  · rw [if_neg h]
    constructor
    · intro hc; cases hc
    · intro hc; exact absurd hc.1 h

theorem formV32_eq_some {mk : Word → Instr} {sub : Byte} {arg : Half} {ops : List Word} {i : Instr} :
    formV32 mk sub arg ops = some i ↔ (sub = 0 ∧ arg = 0) ∧ ∃ v : Word, ops = [v] ∧ mk v = i := by
  unfold formV32
  by_cases h : sub = 0 ∧ arg = 0
  · rw [if_pos h]
    constructor
    · intro hh
      split at hh
      · exact ⟨h, _, rfl, by simpa using hh⟩
      · cases hh
    · rintro ⟨-, v, rfl, rfl⟩
      rfl
  · rw [if_neg h]
    constructor
    · intro hc; cases hc
    · intro hc; exact absurd hc.1 h

/-- Everything `decodeCmd` can read: nothing whole, an illegal command of its whole length (R79), or an instruction. -/
theorem decodeCmd_cons (cw0 : Word) (ops : List Word) :
    (opcodeOf (opField cw0) = none ∧ decodeCmd (cw0 :: ops) = .illegal .unassignedOpcode ops) ∨
    ∃ o, opcodeOf (opField cw0) = some o ∧
      ((operandCount o (subField cw0) ops = none ∧ decodeCmd (cw0 :: ops) = .incomplete) ∨
       ∃ n, operandCount o (subField cw0) ops = some n ∧
        ((ops.length < n ∧ decodeCmd (cw0 :: ops) = .incomplete) ∨
         (n ≤ ops.length ∧ decodeOperands o (subField cw0) (argField cw0) (ops.take n) = none ∧
            decodeCmd (cw0 :: ops) = .illegal .reservedField (ops.drop n)) ∨
         (n ≤ ops.length ∧ ∃ i, decodeOperands o (subField cw0) (argField cw0) (ops.take n) = some i ∧
            decodeCmd (cw0 :: ops) = .instr i (ops.drop n)))) := by
  cases ho : opcodeOf (opField cw0) with
  | none => exact .inl ⟨rfl, by simp [decodeCmd, ho]⟩
  | some o =>
    refine .inr ⟨o, rfl, ?_⟩
    cases hn : operandCount o (subField cw0) ops with
    | none => exact .inl ⟨rfl, by simp [decodeCmd, ho, hn]⟩
    | some n =>
      refine .inr ⟨n, rfl, ?_⟩
      by_cases hl : ops.length < n
      · exact .inl ⟨hl, by simp [decodeCmd, ho, hn, hl]⟩
      · cases hd : decodeOperands o (subField cw0) (argField cw0) (ops.take n) with
        | none => exact .inr (.inl ⟨by omega, rfl, by simp [decodeCmd, ho, hn, hl, hd]⟩)
        | some i => exact .inr (.inr ⟨by omega, i, rfl, by simp [decodeCmd, ho, hn, hl, hd]⟩)

/-- What the command port carries are commands. -/
theorem decodeCmd_port {ws : List Word} {i : Instr} {rest : List Word} (h : decodeCmd ws = .instr i rest) : i.port = .cmd := by
  cases ws with
  | nil => cases h
  | cons cw0 ops =>
    rcases decodeCmd_cons cw0 ops with ⟨-, hd⟩ | ⟨o, -, ⟨-, hd⟩ | ⟨n, -, ⟨-, hd⟩ | ⟨-, -, hd⟩ | ⟨-, j, hj, hd⟩⟩⟩ <;>
      rw [hd] at h <;> cases h
    cases o <;> simp only [decodeOperands, formA_eq_some, formAV16_eq_some, formACD_eq_some, formAV32_eq_some, formNW_eq_some,
      formV16_eq_some, formV32_eq_some, formU_eq_some, formN_eq_some] at hj
    case encWrite => obtain ⟨-, _, _, -, rfl⟩ := hj; rfl
    case composeU16 | composeU32 | composeI32 | composeF32 => obtain ⟨-, _, -, rfl⟩ := hj; rfl
    case encRead | writeU16 | writeU32 | writeI32 | writeF32 => obtain ⟨-, _, -, rfl⟩ := hj; rfl
    case decomposeU16 | decomposeU32 | decomposeI32 | decomposeF32 => obtain ⟨-, _, -, rfl⟩ := hj; rfl
    all_goals obtain ⟨-, rfl⟩ := hj; rfl

/-! ## Bytes (R8, R50) -/

@[simp] theorem be16_length (v : Half) : (be16 v).length = 2 := rfl

@[simp] theorem u16be_be16 (v : Half) : u16be (v.extractLsb' 8 8) (v.extractLsb' 0 8) = v :=
  append_extract (m := 8) (n := 8) v

@[simp] theorem u16be_high (a b : Byte) : (u16be a b).extractLsb' 8 8 = a := extract_append_high a b

@[simp] theorem u16be_low (a b : Byte) : (u16be a b).extractLsb' 0 8 = b := extract_append_low a b

@[simp] theorem be16_u16be (a b : Byte) : be16 (u16be a b) = [a, b] := by simp [be16]

/-- R8's formula for `u16be`. -/
theorem u16be_formula (a b : Byte) : u16be a b = (a.setWidth 16 <<< 8) ||| b.setWidth 16 := by
  show (a ++ b : BitVec (8 + 8)) = _
  apply BitVec.eq_of_getLsbD_eq
  intro i hi
  rw [BitVec.getLsbD_append]
  simp only [BitVec.getLsbD_or, BitVec.getLsbD_shiftLeft, BitVec.getLsbD_setWidth]
  by_cases h : i < 8
  · simp [h]; omega
  · have e : b.getLsbD i = false := BitVec.getLsbD_of_ge b i (by omega)
    have l : i < 16 := hi
    simp [h, e, l]
    intro; omega

/-- `u16be(a, b) = (a << 8) | b`, in arithmetic. -/
theorem toNat_u16be (a b : Byte) : (u16be a b).toNat = 256 * a.toNat + b.toNat := by
  rw [u16be, BitVec.toNat_append, ← Nat.shiftLeft_add_eq_or_of_lt b.isLt, Nat.shiftLeft_eq]
  omega

/-- The two bytes of `be16`, in arithmetic. -/
theorem be16_eq (v : Half) : be16 v = [BitVec.ofNat 8 (v.toNat / 256), BitVec.ofNat 8 (v.toNat % 256)] := by
  simp only [be16, List.cons.injEq, and_true]
  refine ⟨BitVec.eq_of_toNat_eq ?_, BitVec.eq_of_toNat_eq ?_⟩ <;>
    simp [BitVec.extractLsb'_toNat, Nat.shiftRight_eq_div_pow]

@[simp] theorem flatMap_be16_length (vs : List Half) : (vs.flatMap be16).length = 2 * vs.length := by
  induction vs with
  | nil => rfl
  | cons v vs ih => simp [List.flatMap_cons, ih]; omega

@[simp] theorem wordsOf_flatMap_be16 (vs : List Half) : wordsOf (vs.flatMap be16) = vs := by
  induction vs with
  | nil => rfl
  | cons v vs ih => simp [List.flatMap_cons, be16, wordsOf, ih]

/-- An even number of bytes is its words, high byte first. -/
theorem flatMap_be16_wordsOf : ∀ {n : Nat} {bs : List Byte}, bs.length = 2 * n → (wordsOf bs).flatMap be16 = bs
  | 0, [], _ => rfl
  | 0, _ :: _, h => by simp at h
  | n + 1, [], h => by simp at h
  | n + 1, [_], h => by simp at h; omega
  | n + 1, a :: b :: bs, h => by
    have h' : bs.length = 2 * n := by simp at h; omega
    simp [wordsOf, List.flatMap_cons, flatMap_be16_wordsOf h']

theorem wordsOf_length : ∀ {n : Nat} {bs : List Byte}, bs.length = 2 * n → (wordsOf bs).length = n
  | 0, [], _ => rfl
  | 0, _ :: _, h => by simp at h
  | n + 1, [], h => by simp at h
  | n + 1, [_], h => by simp at h; omega
  | n + 1, a :: b :: bs, h => by
    have h' : bs.length = 2 * n := by simp at h; omega
    simp [wordsOf, wordsOf_length h']

/-! ## Frames (R104) -/

/-- A frame byte by byte: the header of R104, then the PDU. -/
theorem frame_eq (tid : Half) (unit : Byte) (pdu : List Byte) :
    frame tid unit pdu =
      tid.extractLsb' 8 8 :: tid.extractLsb' 0 8 :: 0 :: 0 ::
        (BitVec.ofNat 16 (1 + pdu.length)).extractLsb' 8 8 :: (BitVec.ofNat 16 (1 + pdu.length)).extractLsb' 0 8 ::
          unit :: pdu := rfl

@[simp] theorem frame_length (tid : Half) (unit : Byte) (pdu : List Byte) : (frame tid unit pdu).length = 7 + pdu.length := by
  simp [frame_eq]; omega

@[simp] theorem readFrame_length (tid : Half) (unit : Byte) (addr count : Half) :
    (readFrame tid unit addr count).length = 12 := rfl

@[simp] theorem writeFrame_length (tid : Half) (unit : Byte) (addr : Half) (values : List Half) :
    (writeFrame tid unit addr values).length = 13 + 2 * values.length := by
  simp [writeFrame]; omega

@[simp] theorem u16be_zero : u16be 0#8 0#8 = 0#16 := by decide

theorem msb_high_bit (x : BitVec 7) : (1#1 ++ x : Byte).msb = true :=
  (BitVec.msb_append (x := 1#1) (y := x)).trans rfl

theorem low_bits (x : BitVec 7) : (1#1 ++ x : Byte).extractLsb' 0 7 = x := extract_append_low 1#1 x

theorem high_bit_low_bits (f : Byte) (h : f.msb = true) : (1#1 ++ f.extractLsb' 0 7 : Byte) = f := by
  have e : f.extractLsb' 7 1 = 1#1 := by
    apply BitVec.eq_of_getLsbD_eq
    intro i hi
    have : i = 0 := by omega
    subst this
    simpa [BitVec.msb, BitVec.getMsbD] using h
  rw [← e]
  exact append_extract (m := 1) (n := 7) f

/-- The header check of R123: its three accepted classes. -/
theorem headerOK_iff (pid len : Half) (f : Byte) :
    headerOK pid len f = true ↔
      pid = 0 ∧ ((f.msb = true ∧ len = 3) ∨ (f = 0x10 ∧ len = 6) ∨ (f = 0x03 ∧ 3 ≤ len.toNat ∧ len.toNat ≤ 254)) := by
  unfold headerOK
  by_cases hp : pid = 0
  · rw [if_neg (by simpa using hp)]
    by_cases hm : f.msb = true
    · have h1 : f ≠ 0x10 := by rintro rfl; revert hm; decide
      have h2 : f ≠ 0x03 := by rintro rfl; revert hm; decide
      rw [if_pos hm, beq_iff_eq]
      exact ⟨fun h => ⟨hp, .inl ⟨hm, h⟩⟩, fun h => h.2.elim (·.2) fun h => h.elim (absurd ·.1 h1) (absurd ·.1 h2)⟩
    · rw [if_neg hm]
      by_cases h1 : f = 0x10
      · have h2 : f ≠ 0x03 := by rintro rfl; revert h1; decide
        rw [if_pos (by simpa [FunCode.code] using h1), beq_iff_eq]
        exact ⟨fun h => ⟨hp, .inr (.inl ⟨h1, h⟩)⟩, fun h => h.2.elim (absurd ·.1 hm) fun h => h.elim (·.2) (absurd ·.1 h2)⟩
      · rw [if_neg (by simpa [FunCode.code] using h1)]
        by_cases h2 : f = 0x03
        · rw [if_pos (by simpa [FunCode.code] using h2), Bool.and_eq_true, decide_eq_true_eq, decide_eq_true_eq]
          exact ⟨fun h => ⟨hp, .inr (.inr ⟨h2, h⟩)⟩, fun h => h.2.elim (absurd ·.1 hm) fun h => h.elim (absurd ·.1 h1) (·.2)⟩
        · rw [if_neg (by simpa [FunCode.code] using h2)]
          exact ⟨fun h => (by cases h), fun h => h.2.elim (absurd ·.1 hm) fun h => h.elim (absurd ·.1 h1) (absurd ·.1 h2)⟩
  · rw [if_pos (by simpa using hp)]
    exact ⟨fun h => (by cases h), fun h => absurd h.1 hp⟩

theorem u16be_eq_small {a b : Byte} {n : Half} (h : u16be a b = n) : a = n.extractLsb' 8 8 ∧ b = n.extractLsb' 0 8 :=
  ⟨by rw [← h, u16be_high], by rw [← h, u16be_low]⟩

/-- The three shapes of bytes that are a response frame (R75 to R77). -/
theorem decodeResponse_cases {bs : List Byte} {i : Instr} (h : decodeResponse bs = .ok i) :
    (∃ t1 t0 u f x, bs = [t1, t0, 0, 0, 0, 3, u, f, x] ∧ f.msb = true ∧
        i = .rspException (u16be t1 t0) u (f.extractLsb' 0 7) x) ∨
    (∃ t1 t0 u a1 a0 c1 c0, bs = [t1, t0, 0, 0, 0, 6, u, 0x10, a1, a0, c1, c0] ∧
        i = .rspWriteMultiple (u16be t1 t0) u (u16be a1 a0) (u16be c1 c0)) ∨
    (∃ t1 t0 l1 l0 u bc data, bs = t1 :: t0 :: 0 :: 0 :: l1 :: l0 :: u :: 0x03 :: bc :: data ∧ data.length = bc.toNat ∧
        (u16be l1 l0).toNat = 3 + bc.toNat ∧ 3 + bc.toNat ≤ 254 ∧ i = .rspReadHolding (u16be t1 t0) u data) := by
  unfold decodeResponse at h
  split at h
  · rename_i t1 t0 p1 p0 l1 l0 u f body
    split at h
    · rename_i hok
      rw [headerOK_iff] at hok
      obtain ⟨hp, hok⟩ := hok
      obtain ⟨hp1, hp0⟩ := u16be_eq_small hp
      have hp1 : p1 = 0 := hp1.trans (by decide)
      have hp0 : p0 = 0 := hp0.trans (by decide)
      subst hp1 hp0
      rcases hok with ⟨hm, hl⟩ | ⟨hf, hl⟩ | ⟨hf, hl3, hl⟩
      · rw [if_pos hm] at h
        obtain ⟨e1, e0⟩ := u16be_eq_small hl
        have e1 : l1 = 0 := e1.trans (by decide)
        have e0 : l0 = 3 := e0.trans (by decide)
        subst e1 e0
        split at h
        · exact .inl ⟨_, _, _, _, _, rfl, hm, by simpa using h.symm⟩
        · simp at h
      · subst hf
        obtain ⟨e1, e0⟩ := u16be_eq_small hl
        have e1 : l1 = 0 := e1.trans (by decide)
        have e0 : l0 = 6 := e0.trans (by decide)
        subst e1 e0
        rw [if_neg (by decide), if_pos (by decide)] at h
        split at h
        · exact .inr (.inl ⟨_, _, _, _, _, _, _, rfl, by simpa using h.symm⟩)
        · simp at h
      · subst hf
        rw [if_neg (by decide), if_neg (by decide)] at h
        split at h
        · split at h
          · rename_i hc
            exact .inr (.inr ⟨_, _, _, _, _, _, _, rfl, hc.1, hc.2, by omega, by simpa using h.symm⟩)
          · simp at h
        · simp at h
    · simp at h
  · simp at h

/-- Whatever decodes to a response is long enough to be one, as its own length field says (R83). -/
theorem decodeResponse_shape {bs : List Byte} {i : Instr} (h : decodeResponse bs = .ok i) :
    ∃ t1 t0 p1 p0 l1 l0 u f body, bs = t1 :: t0 :: p1 :: p0 :: l1 :: l0 :: u :: f :: body ∧
      bs.length = 6 + (u16be l1 l0).toNat ∧
      (∀ bc, body = [bc] → f = 0x03 → (u16be l1 l0).toNat = 3 + bc.toNat) := by
  rcases decodeResponse_cases h with ⟨t1, t0, u, f, x, rfl, hm, -⟩ | ⟨t1, t0, u, a1, a0, c1, c0, rfl, -⟩ |
    ⟨t1, t0, l1, l0, u, bc, data, rfl, hd, hl, -, -⟩
  · refine ⟨_, _, _, _, _, _, _, _, _, rfl, rfl, ?_⟩
    intro bc _ hf
    subst hf
    exact absurd hm (by decide)
  · refine ⟨_, _, _, _, _, _, _, _, _, rfl, rfl, ?_⟩
    intro bc hb _
    simp at hb
  · refine ⟨_, _, _, _, _, _, _, _, _, rfl, by simp [hl, hd]; omega, ?_⟩
    intro bc' hb _
    simp only [List.cons.injEq] at hb
    rw [hl, hb.1]

/-- What the receive port carries are responses. -/
theorem decodeResponse_port {bs : List Byte} {i : Instr} (h : decodeResponse bs = .ok i) : i.port = .rx := by
  rcases decodeResponse_cases h with ⟨_, _, _, _, _, -, -, rfl⟩ | ⟨_, _, _, _, _, _, _, -, rfl⟩ |
    ⟨_, _, _, _, _, _, _, -, -, -, -, rfl⟩ <;> rfl

end Sys2Proof
end

