-- ==== Sys2Proof/Laws/Codec.lean ====
section
/-! SUPPORT. The register codec's two directions (R150, R152, R155). -/

namespace Sys2Proof.Machine

/-- R51: the first register is the high word. -/
theorem compose32_eq (h l : Half) : compose32 h l = h ++ l := by
  symm
  show (h ++ l : BitVec (16 + 16)) = (h.setWidth 32 <<< 16) ||| l.setWidth 32
  apply BitVec.eq_of_getLsbD_eq
  intro i hi
  rw [BitVec.getLsbD_append]
  simp only [BitVec.getLsbD_or, BitVec.getLsbD_shiftLeft, BitVec.getLsbD_setWidth]
  by_cases hl : i < 16
  · simp [hl]; omega
  · have e : l.getLsbD i = false := BitVec.getLsbD_of_ge l i (by omega)
    have lt : i < 32 := hi
    simp [hl, e, lt]
    intro; omega

/-- R150, in arithmetic. -/
theorem compose32_toNat (h l : Half) : (compose32 h l).toNat = 65536 * h.toNat + l.toNat := by
  rw [compose32_eq, BitVec.toNat_append, ← Nat.shiftLeft_add_eq_or_of_lt l.isLt, Nat.shiftLeft_eq]
  omega

/-- R152: the high word first. -/
theorem decompose32_eq (v : Word) : decompose32 v = [hiHalf v, loHalf v] := by
  have mask : ∀ n : Nat, n &&& 65535 = n % 65536 := fun n => Nat.and_two_pow_sub_one_eq_mod n 16
  simp only [decompose32, hiHalf, loHalf, List.cons.injEq, and_true]
  refine ⟨BitVec.eq_of_toNat_eq ?_, BitVec.eq_of_toNat_eq ?_⟩ <;> simp [Nat.shiftRight_eq_div_pow, mask]

/-- R155, one direction. -/
theorem compose_decompose (v : Word) : compose32 (hiHalf v) (loHalf v) = v := by
  rw [compose32_eq]; exact append_extract (m := 16) (n := 16) v

/-- R155, the other direction. -/
theorem decompose_compose (h l : Half) : decompose32 (compose32 h l) = [h, l] := by
  rw [decompose32_eq, compose32_eq, hiHalf, loHalf, extract_append_high, extract_append_low]

/-- ViewValue of the 32-bit views (R150). -/
@[simp] theorem viewValue_u32 (h l : Half) : viewValue .u32 [h, l] = compose32 h l := rfl
@[simp] theorem viewValue_i32 (h l : Half) : viewValue .i32 [h, l] = compose32 h l := rfl
@[simp] theorem viewValue_f32 (h l : Half) : viewValue .f32 [h, l] = compose32 h l := rfl
@[simp] theorem viewValue_u16 (w : Half) : viewValue .u16 [w] = w.setWidth 32 := rfl
@[simp] theorem viewValue_raw (ws : List Half) : viewValue .raw ws = 0 := rfl

/-- A typed view of a list of another length is the free value (log 8). -/
theorem viewValue_of_length_ne (view : View) (ws : List Half) (n : Nat) (h : view.wordCount = some n) (hne : ws.length ≠ n) :
    viewValue view ws = Config.viewUnstated view ws := by
  rcases ws with _ | ⟨w0, _ | ⟨w1, _ | ⟨w2, ws⟩⟩⟩ <;> cases view <;> cases h <;> first | rfl | exact absurd rfl hne

end Sys2Proof.Machine
end

