-- ==== Sys2Proof/Laws/State.lean ====
section
/-! SUPPORT. One lemma per field per named update of the state, and what each update appends to the three output ports. -/

namespace Sys2Proof.Machine

@[simp] theorem State.complete_eq (s : State) (k : Completion) : s.complete k = s.put (.cpl k) := rfl

@[simp] theorem State.result_eq (s : State) (r : Result) : s.result r = s.put (.res r) := rfl

@[simp] theorem State.raise_eq (s : State) (st : Status) : s.raise st = s.put (.res { status := st }) := rfl

/-! ## put -/

@[simp] theorem State.put_cfg (s : State) (o : Output) : (s.put o).cfg = s.cfg := rfl
@[simp] theorem State.put_nextTid (s : State) (o : Output) : (s.put o).nextTid = s.nextTid := rfl
@[simp] theorem State.put_unit (s : State) (o : Output) : (s.put o).unit = s.unit := rfl
@[simp] theorem State.put_pend (s : State) (o : Output) : (s.put o).pend = s.pend := rfl
@[simp] theorem State.put_rxBuf (s : State) (o : Output) : (s.put o).rxBuf = s.rxBuf := rfl
@[simp] theorem State.put_dec (s : State) (o : Output) : (s.put o).dec = s.dec := rfl
@[simp] theorem State.put_txBytes (s : State) (o : Output) : (s.put o).txBytes = s.txBytes := rfl
@[simp] theorem State.put_rxBytes (s : State) (o : Output) : (s.put o).rxBytes = s.rxBytes := rfl
@[simp] theorem State.put_frameErrors (s : State) (o : Output) : (s.put o).frameErrors = s.frameErrors := rfl
@[simp] theorem State.put_unmatched (s : State) (o : Output) : (s.put o).unmatched = s.unmatched := rfl
@[simp] theorem State.put_out (s : State) (o : Output) : (s.put o).out = s.out ++ [o] := rfl
@[simp] theorem State.put_cmdIn (s : State) (o : Output) : (s.put o).cmdIn = s.cmdIn := rfl
@[simp] theorem State.put_rxIn (s : State) (o : Output) : (s.put o).rxIn = s.rxIn := rfl
@[simp] theorem State.put_turns (s : State) (o : Output) : (s.put o).turns = s.turns := rfl

/-! ## transmit -/

@[simp] theorem State.transmit_cfg (s : State) (f : List Byte) : (s.transmit f).cfg = s.cfg := rfl
@[simp] theorem State.transmit_nextTid (s : State) (f : List Byte) : (s.transmit f).nextTid = s.nextTid := rfl
@[simp] theorem State.transmit_unit (s : State) (f : List Byte) : (s.transmit f).unit = s.unit := rfl
@[simp] theorem State.transmit_pend (s : State) (f : List Byte) : (s.transmit f).pend = s.pend := rfl
@[simp] theorem State.transmit_rxBuf (s : State) (f : List Byte) : (s.transmit f).rxBuf = s.rxBuf := rfl
@[simp] theorem State.transmit_dec (s : State) (f : List Byte) : (s.transmit f).dec = s.dec := rfl
@[simp] theorem State.transmit_txBytes (s : State) (f : List Byte) : (s.transmit f).txBytes = s.txBytes + BitVec.ofNat 32 f.length := rfl
@[simp] theorem State.transmit_rxBytes (s : State) (f : List Byte) : (s.transmit f).rxBytes = s.rxBytes := rfl
@[simp] theorem State.transmit_frameErrors (s : State) (f : List Byte) : (s.transmit f).frameErrors = s.frameErrors := rfl
@[simp] theorem State.transmit_unmatched (s : State) (f : List Byte) : (s.transmit f).unmatched = s.unmatched := rfl
@[simp] theorem State.transmit_out (s : State) (f : List Byte) : (s.transmit f).out = s.out ++ [.tx f] := rfl
@[simp] theorem State.transmit_cmdIn (s : State) (f : List Byte) : (s.transmit f).cmdIn = s.cmdIn := rfl
@[simp] theorem State.transmit_rxIn (s : State) (f : List Byte) : (s.transmit f).rxIn = s.rxIn := rfl
@[simp] theorem State.transmit_turns (s : State) (f : List Byte) : (s.transmit f).turns = s.turns := rfl

/-! ## endFrame -/

@[simp] theorem State.endFrame_cfg (s : State) : (s.endFrame).cfg = s.cfg := rfl
@[simp] theorem State.endFrame_nextTid (s : State) : (s.endFrame).nextTid = s.nextTid := rfl
@[simp] theorem State.endFrame_unit (s : State) : (s.endFrame).unit = s.unit := rfl
@[simp] theorem State.endFrame_pend (s : State) : (s.endFrame).pend = s.pend := rfl
@[simp] theorem State.endFrame_rxBuf (s : State) : (s.endFrame).rxBuf = [] := rfl
@[simp] theorem State.endFrame_dec (s : State) : (s.endFrame).dec = .awaitHeader := rfl
@[simp] theorem State.endFrame_txBytes (s : State) : (s.endFrame).txBytes = s.txBytes := rfl
@[simp] theorem State.endFrame_rxBytes (s : State) : (s.endFrame).rxBytes = s.rxBytes := rfl
@[simp] theorem State.endFrame_frameErrors (s : State) : (s.endFrame).frameErrors = s.frameErrors := rfl
@[simp] theorem State.endFrame_unmatched (s : State) : (s.endFrame).unmatched = s.unmatched := rfl
@[simp] theorem State.endFrame_out (s : State) : (s.endFrame).out = s.out := rfl
@[simp] theorem State.endFrame_cmdIn (s : State) : (s.endFrame).cmdIn = s.cmdIn := rfl
@[simp] theorem State.endFrame_rxIn (s : State) : (s.endFrame).rxIn = s.rxIn := rfl
@[simp] theorem State.endFrame_turns (s : State) : (s.endFrame).turns = s.turns := rfl

/-! ## framingError -/

@[simp] theorem State.framingError_cfg (s : State) : (s.framingError).cfg = s.cfg := rfl
@[simp] theorem State.framingError_nextTid (s : State) : (s.framingError).nextTid = s.nextTid := rfl
@[simp] theorem State.framingError_unit (s : State) : (s.framingError).unit = s.unit := rfl
@[simp] theorem State.framingError_pend (s : State) : (s.framingError).pend = s.pend := rfl
@[simp] theorem State.framingError_rxBuf (s : State) : (s.framingError).rxBuf = [] := rfl
@[simp] theorem State.framingError_dec (s : State) : (s.framingError).dec = .awaitHeader := rfl
@[simp] theorem State.framingError_txBytes (s : State) : (s.framingError).txBytes = s.txBytes := rfl
@[simp] theorem State.framingError_rxBytes (s : State) : (s.framingError).rxBytes = s.rxBytes := rfl
@[simp] theorem State.framingError_frameErrors (s : State) : (s.framingError).frameErrors = s.frameErrors + 1 := rfl
@[simp] theorem State.framingError_unmatched (s : State) : (s.framingError).unmatched = s.unmatched := rfl
@[simp] theorem State.framingError_out (s : State) : (s.framingError).out = s.out := rfl
@[simp] theorem State.framingError_cmdIn (s : State) : (s.framingError).cmdIn = s.cmdIn := rfl
@[simp] theorem State.framingError_rxIn (s : State) : (s.framingError).rxIn = s.rxIn := rfl
@[simp] theorem State.framingError_turns (s : State) : (s.framingError).turns = s.turns := rfl

/-! ## resetEvent -/

@[simp] theorem State.resetEvent_cfg (s : State) : (s.resetEvent).cfg = s.cfg := rfl
@[simp] theorem State.resetEvent_nextTid (s : State) : (s.resetEvent).nextTid = s.cfg.tidReset := rfl
@[simp] theorem State.resetEvent_unit (s : State) : (s.resetEvent).unit = { valid := false, id := 0 } := rfl
@[simp] theorem State.resetEvent_pend (s : State) : (s.resetEvent).pend = [] := rfl
@[simp] theorem State.resetEvent_rxBuf (s : State) : (s.resetEvent).rxBuf = [] := rfl
@[simp] theorem State.resetEvent_dec (s : State) : (s.resetEvent).dec = .awaitHeader := rfl
@[simp] theorem State.resetEvent_txBytes (s : State) : (s.resetEvent).txBytes = 0 := rfl
@[simp] theorem State.resetEvent_rxBytes (s : State) : (s.resetEvent).rxBytes = 0 := rfl
@[simp] theorem State.resetEvent_frameErrors (s : State) : (s.resetEvent).frameErrors = 0 := rfl
@[simp] theorem State.resetEvent_unmatched (s : State) : (s.resetEvent).unmatched = 0 := rfl
@[simp] theorem State.resetEvent_out (s : State) : (s.resetEvent).out = s.out := rfl
@[simp] theorem State.resetEvent_cmdIn (s : State) : (s.resetEvent).cmdIn = s.cmdIn := rfl
@[simp] theorem State.resetEvent_rxIn (s : State) : (s.resetEvent).rxIn = s.rxIn := rfl
@[simp] theorem State.resetEvent_turns (s : State) : (s.resetEvent).turns = s.turns := rfl

/-! ## The output ports -/

@[simp] theorem Output.results_res (r : Result) : (Output.res r).results = [r] := rfl
@[simp] theorem Output.results_tx (f : List Byte) : (Output.tx f).results = [] := rfl
@[simp] theorem Output.results_cpl (k : Completion) : (Output.cpl k).results = [] := rfl
@[simp] theorem Output.completions_res (r : Result) : (Output.res r).completions = [] := rfl
@[simp] theorem Output.completions_tx (f : List Byte) : (Output.tx f).completions = [] := rfl
@[simp] theorem Output.completions_cpl (k : Completion) : (Output.cpl k).completions = [k] := rfl
@[simp] theorem Output.bytes_res (r : Result) : (Output.res r).bytes = [] := rfl
@[simp] theorem Output.bytes_tx (f : List Byte) : (Output.tx f).bytes = f := rfl
@[simp] theorem Output.bytes_cpl (k : Completion) : (Output.cpl k).bytes = [] := rfl

theorem State.put_res (s : State) (o : Output) : (s.put o).res = s.res ++ o.results := by
  simp [State.res, List.flatMap_append]

theorem State.put_cpl (s : State) (o : Output) : (s.put o).cpl = s.cpl ++ o.completions := by
  simp [State.cpl, List.flatMap_append]

theorem State.put_tx (s : State) (o : Output) : (s.put o).tx = s.tx ++ o.bytes := by
  simp [State.tx, List.flatMap_append]

/-! ## What one completion for each entry appends to the ports (R184) -/

@[simp] theorem completions_of_entries (f : Entry → Completion) (pend : List Entry) :
    (pend.map (fun e => Output.cpl (f e))).flatMap Output.completions = pend.map f := by
  induction pend with
  | nil => rfl
  | cons e es ih => simp [Output.completions, ih]

@[simp] theorem results_of_entries (f : Entry → Completion) (pend : List Entry) :
    (pend.map (fun e => Output.cpl (f e))).flatMap Output.results = [] := by
  induction pend with
  | nil => rfl
  | cons e es ih => simp [Output.results, ih]

@[simp] theorem bytes_of_entries (f : Entry → Completion) (pend : List Entry) :
    (pend.map (fun e => Output.cpl (f e))).flatMap Output.bytes = [] := by
  induction pend with
  | nil => rfl
  | cons e es ih => simp [Output.bytes, ih]

end Sys2Proof.Machine
end

