-- ==== Sys2Proof/Laws/Ops.lean ====
section
/-! SUPPORT. One lemma for each shared operation that says everything it can do; later proofs cite it instead of unfolding the
operation. -/

namespace Sys2Proof.Machine

/-! ## The pending table (R24) -/

theorem findTid_eq_none {tid : Half} {pend : List Entry} : findTid tid pend = none ↔ ∀ e ∈ pend, e.tid ≠ tid := by
  unfold findTid
  rw [List.find?_eq_none]
  constructor
  · intro h e he hh; exact h e he (by simpa using hh)
  · intro h e he hh; exact h e he (by simpa using hh)

theorem findTid_mem {tid : Half} {pend : List Entry} {e : Entry} (h : findTid tid pend = some e) : e ∈ pend :=
  List.mem_of_find?_eq_some h

theorem findTid_tid {tid : Half} {pend : List Entry} {e : Entry} (h : findTid tid pend = some e) : e.tid = tid := by
  have := List.find?_some h
  simpa using this

/-- In a table with no two entries of one tid, `findTid` gives the entry that has it (R24). -/
theorem findTid_of_mem {tid : Half} : ∀ {pend : List Entry} {e : Entry}, (pend.map Entry.tid).Nodup → e ∈ pend → e.tid = tid →
    findTid tid pend = some e
  | [], e, _, he, _ => by cases he
  | x :: xs, e, nd, he, ht => by
    rw [List.map_cons, List.nodup_cons] at nd
    rcases List.mem_cons.mp he with rfl | hm
    · simp [findTid, ht]
    · have hx : x.tid ≠ tid := by
        intro hc
        exact nd.1 (List.mem_map.mpr ⟨e, hm, by rw [ht, hc]⟩)
      have := findTid_of_mem nd.2 hm ht
      simpa [findTid, List.find?_cons, hx] using this

theorem removeTid_subset {tid : Half} {pend : List Entry} {e : Entry} (h : e ∈ removeTid tid pend) : e ∈ pend :=
  List.mem_of_mem_eraseP h

theorem removeTid_sublist (tid : Half) (pend : List Entry) : (removeTid tid pend).Sublist pend := List.eraseP_sublist

theorem removeTid_length {tid : Half} {pend : List Entry} {e : Entry} (h : findTid tid pend = some e) :
    (removeTid tid pend).length + 1 = pend.length := by
  have hm := findTid_mem h
  have ht := findTid_tid h
  have := List.length_eraseP_of_mem (p := fun e : Entry => e.tid == tid) hm (by simpa using ht)
  have pos : 0 < pend.length := List.length_pos_of_mem hm
  unfold removeTid
  omega

/-- In a table with no two entries of one tid, removing a tid's entry leaves exactly the others. -/
theorem removeTid_eq_filter {tid : Half} : ∀ {pend : List Entry}, (pend.map Entry.tid).Nodup →
    removeTid tid pend = pend.filter (fun e => e.tid != tid)
  | [], _ => rfl
  | x :: xs, nd => by
    rw [List.map_cons, List.nodup_cons] at nd
    by_cases hx : x.tid = tid
    · have hs : xs.filter (fun e => e.tid != tid) = xs := by
        rw [List.filter_eq_self]
        intro e he
        have : e.tid ≠ tid := by
          intro hc
          exact nd.1 (List.mem_map.mpr ⟨e, he, by rw [hc, hx]⟩)
        simpa using this
      simp [removeTid, hx, hs]
    · have := removeTid_eq_filter (tid := tid) nd.2
      simp only [removeTid] at this ⊢
      simp [hx, this]

theorem mem_removeTid {tid : Half} {pend : List Entry} (nd : (pend.map Entry.tid).Nodup) {e : Entry} :
    e ∈ removeTid tid pend ↔ e ∈ pend ∧ e.tid ≠ tid := by
  rw [removeTid_eq_filter nd, List.mem_filter]
  simp

theorem removeTid_nodup {tid : Half} {pend : List Entry} (nd : (pend.map Entry.tid).Nodup) :
    ((removeTid tid pend).map Entry.tid).Nodup :=
  nd.sublist ((removeTid_sublist tid pend).map Entry.tid)

/-- In a table with no two entries of one tid, an entry is the only one of its tid. -/
theorem filter_tid_eq : ∀ {pend : List Entry} {e : Entry}, (pend.map Entry.tid).Nodup → e ∈ pend →
    pend.filter (fun x => x.tid == e.tid) = [e]
  | [], _, _, he => by cases he
  | x :: xs, e, nd, he => by
    rw [List.map_cons, List.nodup_cons] at nd
    rcases List.mem_cons.mp he with rfl | hm
    · simp only [List.filter_cons, beq_self_eq_true, if_true, List.cons.injEq, true_and]
      rw [List.filter_eq_nil_iff]
      intro y hy hh
      exact nd.1 (List.mem_map.mpr ⟨y, hy, by simpa using hh⟩)
    · have hx : x.tid ≠ e.tid := fun hc => nd.1 (List.mem_map.mpr ⟨e, hm, hc.symm⟩)
      simp [hx, filter_tid_eq nd.2 hm]

/-! ## Admit (R100) -/

/-- Everything an encode command can do: three refusals that change nothing but RES, or the admission. -/
theorem State.admit_cases (s : State) (fc : FunCode) (addr : Half) (n : Nat) (view : View) (values : List Half) :
    (s.unit.valid = false ∧ s.tryAdmit fc addr n view values = s.raise .deviceIDNotSet) ∨
    (s.unit.valid = true ∧ countAllowed fc n = false ∧ s.tryAdmit fc addr n view values = s.raise .dataOverflow) ∨
    (s.unit.valid = true ∧ countAllowed fc n = true ∧ findTid s.nextTid s.pend = none ∧ s.pend.length = s.cfg.maxPending ∧
      s.tryAdmit fc addr n view values = s.raise .pendingFull) ∨
    (s.unit.valid = true ∧ countAllowed fc n = true ∧ ¬ (findTid s.nextTid s.pend = none ∧ s.pend.length = s.cfg.maxPending) ∧
      s.tryAdmit fc addr n view values = s.admitted fc addr n view values) := by
  unfold State.tryAdmit
  cases hv : s.unit.valid
  · simp
  · cases hc : countAllowed fc n
    · simp
    · by_cases hf : findTid s.nextTid s.pend = none ∧ s.pend.length = s.cfg.maxPending
      · simp [hf]
      · simp [hf]

/-- The entry an admitted encode command inserts (R105). -/
def State.newEntry (s : State) (fc : FunCode) (addr : Half) (n : Nat) (view : View) (values : List Half) : Entry :=
  { tid := s.nextTid, unit := s.unit.id, fc := fc, addr := addr, count := BitVec.ofNat 16 n, view := view, wvals := values }

/-- The state after an admission with no entry to evict (R100, R101, R106). -/
theorem State.admitted_fresh (s : State) (fc : FunCode) (addr : Half) (n : Nat) (view : View) (values : List Half)
    (h : findTid s.nextTid s.pend = none) :
    s.admitted fc addr n view values =
      { s with
        nextTid := s.nextTid + 1
        pend := s.pend ++ [s.newEntry fc addr n view values]
        txBytes := s.txBytes + BitVec.ofNat 32 (requestFrame fc s.nextTid s.unit.id addr n values).length
        out := s.out ++ [.tx (requestFrame fc s.nextTid s.unit.id addr n values),
          .res { status := .ok, tid := s.nextTid }] } := by
  simp [State.admitted, State.evict, h, State.transmit, State.put, State.newEntry]

/-- The state after an admission that evicts (R102). -/
theorem State.admitted_evicting (s : State) (fc : FunCode) (addr : Half) (n : Nat) (view : View) (values : List Half)
    (e : Entry) (h : findTid s.nextTid s.pend = some e) :
    s.admitted fc addr n view values =
      { s with
        nextTid := s.nextTid + 1
        pend := removeTid s.nextTid s.pend ++ [s.newEntry fc addr n view values]
        txBytes := s.txBytes + BitVec.ofNat 32 (requestFrame fc s.nextTid s.unit.id addr n values).length
        out := s.out ++ [.cpl (failRecord e .timeout), .tx (requestFrame fc s.nextTid s.unit.id addr n values),
          .res { status := .ok, tid := s.nextTid }] } := by
  simp [State.admitted, State.evict, h, State.transmit, State.put, State.newEntry]

/-! ## Resolution (R127, R128) -/

theorem State.dispatch_none (s : State) (tid : Half) (unit : Byte) (r : Response) (h : findTid tid s.pend = none) :
    s.dispatch tid unit r = { s with unmatched := s.unmatched + 1 } := by
  simp [State.dispatch, h]

theorem State.dispatch_some (s : State) (tid : Half) (unit : Byte) (r : Response) (e : Entry) (h : findTid tid s.pend = some e) :
    s.dispatch tid unit r = { s with pend := removeTid tid s.pend, out := s.out ++ [.cpl (resolve e unit r)] } := by
  simp [State.dispatch, h, State.put]

/-- A completion carries its entry's context, whatever the response (R81, R132). -/
theorem resolve_context (e : Entry) (unit : Byte) (r : Response) :
    (resolve e unit r).tid = e.tid ∧ (resolve e unit r).unit = e.unit ∧ (resolve e unit r).fc = e.fc ∧
    (resolve e unit r).view = e.view ∧ (resolve e unit r).addr = e.addr ∧ (resolve e unit r).count = e.count := by
  unfold resolve
  cases r <;> dsimp only [startRecord]
  · split
    · simp [failRecord]
    · split
      · simp [failRecord]
      · unfold readOK; split <;> simp [failRecord]
  · split
    · simp [failRecord]
    · split
      · simp [failRecord]
      · unfold writeOK; split <;> simp [failRecord]
  · split
    · simp [failRecord]
    · split <;> simp [failRecord]

/-! ## Every meaning answers a next state (R205) -/

theorem exec_answers (i : Instr) (s : State) : ∃ t, exec i s = .next t := by
  cases i
  case csrRead c =>
    simp only [exec, execCsrRead]
    split
    · exact ⟨_, rfl⟩
    · exact ⟨_, rfl⟩
  case expire tid =>
    simp only [exec, execExpire]
    split
    · exact ⟨_, rfl⟩
    · exact ⟨_, rfl⟩
  all_goals exact ⟨_, rfl⟩

end Sys2Proof.Machine
end

