-- ==== Sys2Proof/Laws/Exec.lean ====
section
/-! SUPPORT. What an instruction can do, once for all instructions: `exec_cases` names the nine shapes of a next state. -/

namespace Sys2Proof.Machine

/-- The arguments with which an encode command runs `Admit` (R110, R111, R160 to R167). -/
def admitArgs : Instr → Option (FunCode × Half × Nat × View × List Half)
  | .encRead a n => some (.readHolding, a, n.toNat, .raw, [])
  | .encWrite a vs => some (.writeMultiple, a, vs.length, .raw, vs)
  | .readU16 a => some (.readHolding, a, 1, .u16, [])
  | .readU32 a => some (.readHolding, a, 2, .u32, [])
  | .readI32 a => some (.readHolding, a, 2, .i32, [])
  | .readF32 a => some (.readHolding, a, 2, .f32, [])
  | .writeU16 a v => some (.writeMultiple, a, 1, .u16, decompose16 v)
  | .writeU32 a v => some (.writeMultiple, a, 2, .u32, decompose32 v)
  | .writeI32 a v => some (.writeMultiple, a, 2, .i32, decompose32 v)
  | .writeF32 a v => some (.writeMultiple, a, 2, .f32, decompose32 v)
  | .composeU16 _ | .composeU32 _ | .composeI32 _ | .composeF32 _ => none
  | .decomposeU16 _ | .decomposeU32 _ | .decomposeI32 _ | .decomposeF32 _ => none
  | .setUnit _ | .resetCounters | .csrRead _ | .expire _ | .linkLost => none
  | .reqReadHolding _ _ _ _ | .reqWriteMultiple _ _ _ _ => none
  | .rspReadHolding _ _ _ | .rspWriteMultiple _ _ _ _ | .rspException _ _ _ _ => none

theorem exec_admitArgs {i : Instr} {fc : FunCode} {addr : Half} {n : Nat} {view : View} {values : List Half}
    (h : admitArgs i = some (fc, addr, n, view, values)) (s : State) :
    exec i s = .next (s.tryAdmit fc addr n view values) := by
  cases i <;> simp only [admitArgs, reduceCtorEq, Option.some.injEq, Prod.mk.injEq] at h <;>
    obtain ⟨rfl, rfl, rfl, rfl, rfl⟩ := h <;> rfl

/-- The written values of an admission are as many as its count (R100: "of length N when fc = 0x10", empty when 0x03), and a
typed view fixes the count (R151). -/
theorem admitArgs_sound {i : Instr} {fc : FunCode} {addr : Half} {n : Nat} {view : View} {values : List Half}
    (h : admitArgs i = some (fc, addr, n, view, values)) :
    viewCountOk view n = true ∧ wvalsOk fc n values = true ∧ i.port = .cmd ∧ (fc = .writeMultiple → values.length = n) := by
  cases i <;> simp only [admitArgs, reduceCtorEq, Option.some.injEq, Prod.mk.injEq] at h <;>
    obtain ⟨rfl, rfl, rfl, rfl, rfl⟩ := h <;>
    simp [viewCountOk, View.wordCount, wvalsOk, decompose16, decompose32, Instr.port]

/-- The nine shapes of the state after an instruction: one result and nothing else; an admission; SET_UNIT; RESET_COUNTERS; a
timeout; LINK_LOST; an emission; a dropped response; a resolved entry. -/
theorem exec_cases {i : Instr} {s t : State} (h : exec i s = .next t) :
    (∃ r, i.port = .cmd ∧ i ≠ .resetCounters ∧ t = s.put (.res r)) ∨
    (∃ fc addr n view values, admitArgs i = some (fc, addr, n, view, values) ∧ countAllowed fc n = true ∧
      s.unit.valid = true ∧ ¬ (findTid s.nextTid s.pend = none ∧ s.pend.length = s.cfg.maxPending) ∧
      t = s.admitted fc addr n view values) ∨
    (∃ u, i = .setUnit u ∧ t = { s with unit := { valid := true, id := u } }.put (.res { status := .ok })) ∨
    (i = .resetCounters ∧ t = { s with txBytes := 0, rxBytes := 0 }.put (.res { status := .ok })) ∨
    (∃ tid e, i = .expire tid ∧ findTid tid s.pend = some e ∧
      t = ({ s with pend := removeTid tid s.pend }.put (.cpl (failRecord e .timeout))).put
        (.res { status := .ok, tid := tid })) ∨
    (i = .linkLost ∧
      t = { s with
        out := s.out ++ s.pend.map (fun e => Output.cpl (failRecord e .connectionLost))
        pend := []
        rxBuf := []
        dec := .awaitHeader }.put (.res { status := .ok })) ∨
    (∃ f, i.port = .tx ∧ t = s.transmit f) ∨
    (∃ tid, i.port = .rx ∧ findTid tid s.pend = none ∧ t = { s with unmatched := s.unmatched + 1 }.endFrame) ∨
    (∃ tid e unit r, i.port = .rx ∧ findTid tid s.pend = some e ∧
      t = ({ s with pend := removeTid tid s.pend }.put (.cpl (resolve e unit r))).endFrame) := by
  have response : ∀ (tid : Half) (unit : Byte) (r : Response), i.port = .rx → t = (s.dispatch tid unit r).endFrame →
      (∃ tid, i.port = .rx ∧ findTid tid s.pend = none ∧ t = { s with unmatched := s.unmatched + 1 }.endFrame) ∨
      (∃ tid e unit r, i.port = .rx ∧ findTid tid s.pend = some e ∧
        t = ({ s with pend := removeTid tid s.pend }.put (.cpl (resolve e unit r))).endFrame) := by
    intro tid unit r hp ht
    cases hf : findTid tid s.pend with
    | none => exact .inl ⟨tid, hp, hf, by rw [ht, State.dispatch_none s tid unit r hf]⟩
    | some e => exact .inr ⟨tid, e, unit, r, hp, hf, by rw [ht, State.dispatch_some s tid unit r e hf]; rfl⟩
  have encode : ∀ fc addr n view values, admitArgs i = some (fc, addr, n, view, values) →
      (∃ r, i.port = .cmd ∧ i ≠ .resetCounters ∧ t = s.put (.res r)) ∨
      (∃ fc addr n view values, admitArgs i = some (fc, addr, n, view, values) ∧ countAllowed fc n = true ∧
        s.unit.valid = true ∧ ¬ (findTid s.nextTid s.pend = none ∧ s.pend.length = s.cfg.maxPending) ∧
        t = s.admitted fc addr n view values) := by
    intro fc addr n view values ha
    have hp := (admitArgs_sound ha).2.2.1
    have hr : i ≠ .resetCounters := by rintro rfl; cases ha
    rw [exec_admitArgs ha] at h
    simp only [Host.Outcome.next.injEq] at h
    rcases State.admit_cases s fc addr n view values with ⟨-, e⟩ | ⟨-, -, e⟩ | ⟨-, -, -, -, e⟩ | ⟨hv, hc, hn, e⟩
    · exact .inl ⟨_, hp, hr, by rw [← h, e]; rfl⟩
    · exact .inl ⟨_, hp, hr, by rw [← h, e]; rfl⟩
    · exact .inl ⟨_, hp, hr, by rw [← h, e]; rfl⟩
    · exact .inr ⟨_, _, _, _, _, ha, hc, hv, hn, by rw [← h, e]⟩
  have compose : ∀ view n ws, i.port = .cmd → i ≠ .resetCounters → t = s.composeResult view n ws →
      ∃ r, i.port = .cmd ∧ i ≠ .resetCounters ∧ t = s.put (.res r) := by
    intro view n ws hp hr ht
    unfold State.composeResult at ht
    split at ht
    · exact ⟨_, hp, hr, ht⟩
    · exact ⟨_, hp, hr, ht⟩
  cases i
  case csrRead c =>
    simp only [exec, execCsrRead] at h
    split at h <;> simp only [Host.Outcome.next.injEq] at h
    · exact .inl ⟨_, rfl, by simp, h.symm⟩
    · exact .inl ⟨_, rfl, by simp, h.symm⟩
  case expire tid =>
    simp only [exec, execExpire] at h
    split at h <;> simp only [Host.Outcome.next.injEq] at h
    · exact .inl ⟨_, rfl, by simp, h.symm⟩
    · rename_i e he
      exact .inr (.inr (.inr (.inr (.inl ⟨_, _, rfl, he, h.symm⟩))))
  all_goals
    simp only [exec] at h
    first
      | (rcases encode _ _ _ _ _ rfl with e | e; exact .inl e; exact .inr (.inl e))
      | exact .inr (.inr (.inl ⟨_, rfl, (Host.Outcome.next.inj h).symm⟩))
      | exact .inr (.inr (.inr (.inl ⟨rfl, (Host.Outcome.next.inj h).symm⟩)))
      | exact .inr (.inr (.inr (.inr (.inr (.inl ⟨rfl, (Host.Outcome.next.inj h).symm⟩)))))
      | exact .inr (.inr (.inr (.inr (.inr (.inr (.inl ⟨_, rfl, (Host.Outcome.next.inj h).symm⟩))))))
      | exact .inr (.inr (.inr (.inr (.inr (.inr (.inr (response _ _ _ rfl (Host.Outcome.next.inj h).symm)))))))
      | exact .inl (compose _ _ _ rfl (by simp) (Host.Outcome.next.inj h).symm)
      | exact .inl ⟨_, rfl, by simp, (Host.Outcome.next.inj h).symm⟩

/-- No instruction touches the configuration or what waits on the ports, and none withdraws an output (R35, R208). -/
theorem exec_frame {i : Instr} {s t : State} (h : exec i s = .next t) :
    t.cfg = s.cfg ∧ t.cmdIn = s.cmdIn ∧ t.rxIn = s.rxIn ∧ t.turns = s.turns ∧ ∃ added, t.out = s.out ++ added := by
  rcases exec_cases h with ⟨r, -, -, rfl⟩ | ⟨fc, a, n, v, vs, -, -, -, -, rfl⟩ | ⟨u, -, rfl⟩ | ⟨-, rfl⟩ | ⟨tid, e, -, -, rfl⟩ |
    ⟨-, rfl⟩ | ⟨f, -, rfl⟩ | ⟨tid, -, -, rfl⟩ | ⟨tid, e, u, r, -, -, rfl⟩
  · exact ⟨rfl, rfl, rfl, rfl, _, rfl⟩
  · cases hf : findTid s.nextTid s.pend with
    | none => rw [State.admitted_fresh _ _ _ _ _ _ hf]; exact ⟨rfl, rfl, rfl, rfl, _, rfl⟩
    | some e => rw [State.admitted_evicting _ _ _ _ _ _ e hf]; exact ⟨rfl, rfl, rfl, rfl, _, rfl⟩
  · exact ⟨rfl, rfl, rfl, rfl, _, rfl⟩
  · exact ⟨rfl, rfl, rfl, rfl, _, rfl⟩
  · exact ⟨rfl, rfl, rfl, rfl, _, by simp; rfl⟩
  · exact ⟨rfl, rfl, rfl, rfl, _, by simp; rfl⟩
  · exact ⟨rfl, rfl, rfl, rfl, _, rfl⟩
  · exact ⟨rfl, rfl, rfl, rfl, [], by simp⟩
  · exact ⟨rfl, rfl, rfl, rfl, _, rfl⟩

end Sys2Proof.Machine
end

