-- ==== Sys2Proof/Laws/Fetch.lean ====
section
/-! SUPPORT. What a step takes from the ports, and everything that a step can be. -/

namespace Sys2Proof.Machine

@[simp] theorem fetch_nil (s : State) (h : s.turns = []) : fetch s = .done s := by simp [fetch, h]

theorem fetch_cmd (s : State) (ts : List Turn) (h : s.turns = .cmd :: ts) :
    fetch s = { s with turns := ts }.takeCommand := by simp [fetch, h]

theorem fetch_rx (s : State) (ts : List Turn) (h : s.turns = .rx :: ts) : fetch s = { s with turns := ts }.takeByte := by
  simp [fetch, h]

theorem fetch_reset (s : State) (ts : List Turn) (h : s.turns = .reset :: ts) :
    fetch s = .done { s with turns := ts }.resetEvent := by simp [fetch, h]

/-- `s` with one more byte received (R120): counted, and at the end of RXBUF. -/
def State.withByte (s : State) (b : Byte) : State := { s with rxBytes := s.rxBytes + 1, rxBuf := s.rxBuf ++ [b] }

/-- The AWAIT_HEADER branch: it waits, or the header passes, or it is a framing error (R121, R123, R124). -/
theorem State.receiveHeader_cases (s : State) :
    (s.rxBuf.length < 8 ∧ s.receiveHeader = .done s) ∨
    ∃ t1 t0 p1 p0 l1 l0 u f body, s.rxBuf = t1 :: t0 :: p1 :: p0 :: l1 :: l0 :: u :: f :: body ∧
      ((headerOK (u16be p1 p0) (u16be l1 l0) f = true ∧ s.receiveHeader = .done { s with dec := .awaitBody }) ∨
       (headerOK (u16be p1 p0) (u16be l1 l0) f = false ∧ s.receiveHeader = .done s.framingError)) := by
  unfold State.receiveHeader
  split
  · rename_i t1 t0 p1 p0 l1 l0 u f body hb
    right
    refine ⟨t1, t0, p1, p0, l1, l0, u, f, body, hb, ?_⟩
    cases hk : headerOK (u16be p1 p0) (u16be l1 l0) f
    · exact .inr ⟨rfl, by simp⟩
    · exact .inl ⟨rfl, by simp⟩
  · rename_i hne
    left
    refine ⟨?_, rfl⟩
    match hb : s.rxBuf with
    | [] | [_] | [_, _] | [_, _, _] | [_, _, _, _] | [_, _, _, _, _] | [_, _, _, _, _, _] | [_, _, _, _, _, _, _] => simp
    | t1 :: t0 :: p1 :: p0 :: l1 :: l0 :: u :: f :: body => exact absurd hb (hne t1 t0 p1 p0 l1 l0 u f body)

/-- The AWAIT_BODY branch: it waits, or the byte count is wrong, or the frame is complete (R125, R126); else the state is one
that R27 or R123 excludes. -/
theorem State.receiveBody_cases (s : State) :
    (s.rxBuf.length < 8 ∧ s.receiveBody = .stop .bodyWithoutHeader) ∨
    ∃ t1 t0 p1 p0 l1 l0 u f body, s.rxBuf = t1 :: t0 :: p1 :: p0 :: l1 :: l0 :: u :: f :: body ∧
      ((byteCountWrong f (u16be l1 l0).toNat body = true ∧ s.receiveBody = .done s.framingError) ∨
       (byteCountWrong f (u16be l1 l0).toNat body = false ∧
         ((s.rxBuf.length ≠ 6 + (u16be l1 l0).toNat ∧ s.receiveBody = .done s) ∨
          (s.rxBuf.length = 6 + (u16be l1 l0).toNat ∧
            ((∃ i, decodeResponse s.rxBuf = .ok i ∧ s.receiveBody = .run i { s with dec := .dispatched }) ∨
             (∃ e, decodeResponse s.rxBuf = .error e ∧ s.receiveBody = .stop .completeButUnframed)))))) := by
  unfold State.receiveBody
  split
  · rename_i t1 t0 p1 p0 l1 l0 u f body hb
    right
    refine ⟨t1, t0, p1, p0, l1, l0, u, f, body, hb, ?_⟩
    cases hw : byteCountWrong f (u16be l1 l0).toNat body
    · right
      refine ⟨rfl, ?_⟩
      by_cases hl : s.rxBuf.length = 6 + (u16be l1 l0).toNat
      · right
        refine ⟨hl, ?_⟩
        cases hd : decodeResponse s.rxBuf with
        | ok i => exact .inl ⟨i, rfl, by simp [hl]⟩
        | error e => exact .inr ⟨e, rfl, by simp [hl]⟩
      · left
        exact ⟨hl, by simp [hl]⟩
    · left
      exact ⟨rfl, by simp⟩
  · rename_i hne
    left
    refine ⟨?_, rfl⟩
    match hb : s.rxBuf with
    | [] | [_] | [_, _] | [_, _, _] | [_, _, _, _] | [_, _, _, _, _] | [_, _, _, _, _, _] | [_, _, _, _, _, _, _] => simp
    | t1 :: t0 :: p1 :: p0 :: l1 :: l0 :: u :: f :: body => exact absurd hb (hne t1 t0 p1 p0 l1 l0 u f body)

theorem State.receive_eq (s : State) (b : Byte) :
    s.receive b = match s.dec with
      | .awaitHeader => (s.withByte b).receiveHeader
      | .awaitBody => (s.withByte b).receiveBody
      | .dispatched => .stop .dispatchedBetweenSteps := rfl

/-- Everything that a receive step can be, from a state that holds the byte: it ends with the byte only kept, or with the header
accepted, or with a framing error, or it runs the completed frame. -/
theorem State.receive_cases (s : State) (b : Byte) :
    s.receive b = .done (s.withByte b) ∨
    (s.dec = .awaitHeader ∧ s.receive b = .done { s.withByte b with dec := .awaitBody }) ∨
    s.receive b = .done (s.withByte b).framingError ∨
    (s.dec = .awaitBody ∧ ∃ i, decodeResponse (s.rxBuf ++ [b]) = .ok i ∧
      s.receive b = .run i { s.withByte b with dec := .dispatched }) ∨
    ∃ f, s.receive b = .stop f := by
  rw [State.receive_eq]
  cases hd : s.dec
  · rcases State.receiveHeader_cases (s.withByte b) with ⟨-, h⟩ | ⟨_, _, _, _, _, _, _, _, _, -, ⟨-, h⟩ | ⟨-, h⟩⟩
    · exact .inl h
    · exact .inr (.inl ⟨rfl, h⟩)
    · exact .inr (.inr (.inl h))
  · rcases State.receiveBody_cases (s.withByte b) with
      ⟨-, h⟩ | ⟨_, _, _, _, _, _, _, _, _, -, ⟨-, h⟩ | ⟨-, ⟨-, h⟩ | ⟨-, ⟨i, hi, h⟩ | ⟨_, -, h⟩⟩⟩⟩
    · exact .inr (.inr (.inr (.inr ⟨_, h⟩)))
    · exact .inr (.inr (.inl h))
    · exact .inl h
    · exact .inr (.inr (.inr (.inl ⟨rfl, i, hi, h⟩)))
    · exact .inr (.inr (.inr (.inr ⟨_, h⟩)))
  · exact .inr (.inr (.inr (.inr ⟨_, rfl⟩)))

/-- The last byte of a response frame runs it (R126). -/
theorem State.receive_completed {s : State} {b : Byte} {i : Instr} (hdec : s.dec = .awaitBody)
    (hi : decodeResponse (s.rxBuf ++ [b]) = .ok i) : s.receive b = .run i { s.withByte b with dec := .dispatched } := by
  obtain ⟨t1, t0, p1, p0, l1, l0, u, f, body, hb, hl, hbc⟩ := decodeResponse_shape hi
  rw [State.receive_eq, hdec]
  rcases State.receiveBody_cases (s.withByte b) with
    ⟨hs, -⟩ | ⟨t1', t0', p1', p0', l1', l0', u', f', body', hb', ⟨hw, -⟩ | ⟨-, ⟨hn, -⟩ | ⟨-, ⟨j, hj, h⟩ | ⟨e, he, -⟩⟩⟩⟩
  · have : (s.rxBuf ++ [b]).length < 8 := hs
    rw [hb] at this
    simp only [List.length_cons] at this
    omega
  · have hb' : s.rxBuf ++ [b] = _ := hb'
    rw [hb] at hb'
    simp only [List.cons.injEq] at hb'
    obtain ⟨rfl, rfl, rfl, rfl, rfl, rfl, rfl, rfl, rfl⟩ := hb'
    unfold byteCountWrong at hw
    split at hw
    · rename_i bc
      simp only [Bool.and_eq_true, beq_iff_eq, bne_iff_ne] at hw
      exact absurd (hbc bc rfl hw.1) hw.2
    · cases hw
  · have hb' : s.rxBuf ++ [b] = _ := hb'
    rw [hb] at hb'
    simp only [List.cons.injEq] at hb'
    obtain ⟨rfl, rfl, rfl, rfl, rfl, rfl, rfl, rfl, rfl⟩ := hb'
    exact absurd hl hn
  · have hj : decodeResponse (s.rxBuf ++ [b]) = .ok j := hj
    rw [hi] at hj
    cases hj
    exact h
  · have he : decodeResponse (s.rxBuf ++ [b]) = .error e := he
    rw [hi] at he
    cases he

/-- Everything that a step with a next state can be. -/
inductive StepCase (s t : State) : Prop
  /-- No turn: the block waits. -/
  | idle (h : s.turns = []) (ht : t = s)
  /-- The command port has nothing whole: the turn passes. -/
  | noCommand (ts : List Turn) (h : s.turns = .cmd :: ts) (hd : decodeCmd s.cmdIn = .incomplete) (ht : t = { s with turns := ts })
  /-- An illegal command (R79). -/
  | illegal (ts : List Turn) (why : Reject) (rest : List Word) (h : s.turns = .cmd :: ts)
      (hd : decodeCmd s.cmdIn = .illegal why rest)
      (ht : t = { s with turns := ts, cmdIn := rest }.put (.res { status := .illegalCommand }))
  /-- A command runs. -/
  | command (ts : List Turn) (i : Instr) (rest : List Word) (h : s.turns = .cmd :: ts) (hd : decodeCmd s.cmdIn = .instr i rest)
      (ht : exec i { s with turns := ts, cmdIn := rest } = .next t)
  /-- The receive port has nothing: the turn passes. -/
  | noByte (ts : List Turn) (h : s.turns = .rx :: ts) (hb : s.rxIn = []) (ht : t = { s with turns := ts })
  /-- A byte is kept. -/
  | kept (ts : List Turn) (b : Byte) (rest : List Byte) (h : s.turns = .rx :: ts) (hb : s.rxIn = b :: rest)
      (hr : { s with turns := ts, rxIn := rest }.receive b = .done t)
      (ht : t = { s with turns := ts, rxIn := rest }.withByte b)
  /-- A header is accepted (R123). -/
  | accepted (ts : List Turn) (b : Byte) (rest : List Byte) (h : s.turns = .rx :: ts) (hb : s.rxIn = b :: rest)
      (hh : s.dec = .awaitHeader) (hr : { s with turns := ts, rxIn := rest }.receive b = .done t)
      (ht : t = { { s with turns := ts, rxIn := rest }.withByte b with dec := .awaitBody })
  /-- A framing error (R124). -/
  | discarded (ts : List Turn) (b : Byte) (rest : List Byte) (h : s.turns = .rx :: ts) (hb : s.rxIn = b :: rest)
      (ht : t = ({ s with turns := ts, rxIn := rest }.withByte b).framingError)
  /-- A frame is complete and runs (R126). -/
  | completed (ts : List Turn) (b : Byte) (rest : List Byte) (i : Instr) (h : s.turns = .rx :: ts) (hb : s.rxIn = b :: rest)
      (hbody : s.dec = .awaitBody) (hd : decodeResponse (s.rxBuf ++ [b]) = .ok i)
      (ht : exec i { { s with turns := ts, rxIn := rest }.withByte b with dec := .dispatched } = .next t)
  /-- The reset event (R230). -/
  | reset (ts : List Turn) (h : s.turns = .reset :: ts) (ht : t = { s with turns := ts }.resetEvent)

theorem step_cases {s t : State} (h : step s = .next t) : StepCase s t := by
  match hts : s.turns with
  | [] =>
    rw [step, fetch_nil s hts] at h
    exact .idle hts (Host.Outcome.next.inj h).symm
  | .reset :: ts =>
    rw [step, fetch_reset s ts hts] at h
    exact .reset ts hts (Host.Outcome.next.inj h).symm
  | .cmd :: ts =>
    rw [step, fetch_cmd s ts hts] at h
    unfold State.takeCommand at h
    cases hd : decodeCmd s.cmdIn with
    | incomplete =>
      simp only [hd] at h
      exact .noCommand ts hts hd (Host.Outcome.next.inj h).symm
    | illegal why rest =>
      simp only [hd] at h
      exact .illegal ts why rest hts hd (Host.Outcome.next.inj h).symm
    | instr i rest =>
      simp only [hd] at h
      exact .command ts i rest hts hd h
  | .rx :: ts =>
    rw [step, fetch_rx s ts hts] at h
    unfold State.takeByte at h
    match hb : s.rxIn with
    | [] =>
      simp only [hb] at h
      exact .noByte ts hts hb (by rw [← Host.Outcome.next.inj h, hb])
    | b :: rest =>
      simp only [hb] at h
      rcases State.receive_cases { s with turns := ts, rxIn := rest } b with e | ⟨hh, e⟩ | e | ⟨hbody, i, hi, e⟩ | ⟨f, e⟩
      · rw [e] at h
        have ht := (Host.Outcome.next.inj h).symm
        exact .kept ts b rest hts hb (by rw [e, ht]) ht
      · rw [e] at h
        have ht := (Host.Outcome.next.inj h).symm
        exact .accepted ts b rest hts hb hh (by rw [e, ht]) ht
      · rw [e] at h
        exact .discarded ts b rest hts hb (Host.Outcome.next.inj h).symm
      · rw [e] at h
        exact .completed ts b rest i hts hb hbody hi h
      · rw [e] at h
        cases h

end Sys2Proof.Machine
end

