-- ==== Sys2Proof/Laws/PerInstr.lean ====
section
/-! SUPPORT. What holds of every instruction as syntax, one lemma per constructor. EncodedSize: an instruction is carried by its
table row's port, in as many words (R71) or bytes (R73 to R77) as its format says. -/

namespace Sys2Proof.Laws.EncodedSize

/-- The words of a command (R71: CW0 and its operand words), the bytes of a frame (R73 to R77). -/
def size : Instr → Nat
  | .encRead _ _ => 2
  | .encWrite _ values => 2 + values.length
  | .readU16 _ => 1
  | .readU32 _ => 1
  | .readI32 _ => 1
  | .readF32 _ => 1
  | .writeU16 _ _ => 2
  | .writeU32 _ _ => 2
  | .writeI32 _ _ => 2
  | .writeF32 _ _ => 2
  | .composeU16 words => 1 + words.length
  | .composeU32 words => 1 + words.length
  | .composeI32 words => 1 + words.length
  | .composeF32 words => 1 + words.length
  | .decomposeU16 _ => 2
  | .decomposeU32 _ => 2
  | .decomposeI32 _ => 2
  | .decomposeF32 _ => 2
  | .setUnit _ => 1
  | .resetCounters => 1
  | .csrRead _ => 1
  | .expire _ => 1
  | .linkLost => 1
  | .reqReadHolding _ _ _ _ => 12
  | .reqWriteMultiple _ _ _ values => 13 + 2 * values.length
  | .rspReadHolding _ _ data => 9 + data.length
  | .rspWriteMultiple _ _ _ _ => 12
  | .rspException _ _ _ _ => 9

/-- The port that carries an encoding. -/
def port : Encoded → Port
  | .cmd _ => .cmd
  | .tx _ => .tx
  | .rx _ => .rx

/-- The number of words or bytes of an encoding. -/
def length : Encoded → Nat
  | .cmd ws => ws.length
  | .tx bs => bs.length
  | .rx bs => bs.length

/-- The encoding stands on the instruction's port and has its format's size. -/
def Statement (i : Instr) : Prop := port (encode i) = i.port ∧ length (encode i) = size i

theorem encRead (addr count : Half) : Statement (.encRead addr count) := ⟨rfl, rfl⟩

theorem encWrite (addr : Half) (values : List Half) :
    Statement (.encWrite addr values) :=
  ⟨rfl, by simp [encode, length, size]; omega⟩

theorem readU16 (addr : Half) : Statement (.readU16 addr) := ⟨rfl, rfl⟩

theorem readU32 (addr : Half) : Statement (.readU32 addr) := ⟨rfl, rfl⟩

theorem readI32 (addr : Half) : Statement (.readI32 addr) := ⟨rfl, rfl⟩

theorem readF32 (addr : Half) : Statement (.readF32 addr) := ⟨rfl, rfl⟩

theorem writeU16 (addr value : Half) : Statement (.writeU16 addr value) := ⟨rfl, rfl⟩

theorem writeU32 (addr : Half) (value : Word) : Statement (.writeU32 addr value) := ⟨rfl, rfl⟩

theorem writeI32 (addr : Half) (value : Word) : Statement (.writeI32 addr value) := ⟨rfl, rfl⟩

theorem writeF32 (addr : Half) (value : Word) : Statement (.writeF32 addr value) := ⟨rfl, rfl⟩

theorem composeU16 (words : List Half) : Statement (.composeU16 words) := ⟨rfl, by simp [encode, encodeNW, length, size]; omega⟩

theorem composeU32 (words : List Half) : Statement (.composeU32 words) := ⟨rfl, by simp [encode, encodeNW, length, size]; omega⟩

theorem composeI32 (words : List Half) : Statement (.composeI32 words) := ⟨rfl, by simp [encode, encodeNW, length, size]; omega⟩

theorem composeF32 (words : List Half) : Statement (.composeF32 words) := ⟨rfl, by simp [encode, encodeNW, length, size]; omega⟩

theorem decomposeU16 (value : Half) : Statement (.decomposeU16 value) := ⟨rfl, rfl⟩

theorem decomposeU32 (value : Word) : Statement (.decomposeU32 value) := ⟨rfl, rfl⟩

theorem decomposeI32 (value : Word) : Statement (.decomposeI32 value) := ⟨rfl, rfl⟩

theorem decomposeF32 (value : Word) : Statement (.decomposeF32 value) := ⟨rfl, rfl⟩

theorem setUnit (unit : Byte) : Statement (.setUnit unit) := ⟨rfl, rfl⟩

theorem resetCounters : Statement .resetCounters := ⟨rfl, rfl⟩

theorem csrRead (csr : Byte) : Statement (.csrRead csr) := ⟨rfl, rfl⟩

theorem expire (tid : Half) : Statement (.expire tid) := ⟨rfl, rfl⟩

theorem linkLost : Statement .linkLost := ⟨rfl, rfl⟩

theorem reqReadHolding (tid : Half) (unit : Byte) (addr count : Half) :
    Statement (.reqReadHolding tid unit addr count) :=
  ⟨rfl, rfl⟩

theorem reqWriteMultiple (tid : Half) (unit : Byte) (addr : Half) (values : List Half) :
    Statement (.reqWriteMultiple tid unit addr values) :=
  ⟨rfl, by simp [encode, length, size]⟩

theorem rspReadHolding (tid : Half) (unit : Byte) (data : List Byte) :
    Statement (.rspReadHolding tid unit data) :=
  ⟨rfl, by simp [encode, readResponseFrame, length, size]; omega⟩

theorem rspWriteMultiple (tid : Half) (unit : Byte) (echoAddr echoCount : Half) :
    Statement (.rspWriteMultiple tid unit echoAddr echoCount) :=
  ⟨rfl, rfl⟩

theorem rspException (tid : Half) (unit : Byte) (fc7 : BitVec 7) (code : Byte) :
    Statement (.rspException tid unit fc7 code) :=
  ⟨rfl, rfl⟩

end Sys2Proof.Laws.EncodedSize
end

