-- ==== Sys2Proof/Tests/Slice0.lean ====
section
/-! SUPPORT. Tests of the model on fixed values. Every expected value is written out from the spec: from its encodings
(spec/30_encoding.md), its test vectors (spec/95_test_vectors.md, named by their ids) or the examples of its rules. The last part
holds one witness for the hypotheses of each statement that has some. -/

namespace Sys2Proof.Tests

open Sys2Proof.Machine Sys2Proof.Claims

/-! ## Well-formedness: each check refuses an ill-formed term -/

theorem test_wf_enc_write_count : (Instr.encWrite 0 (List.replicate 65536 0)).wf = false := by
  rw [Instr.wf, List.length_replicate]
  decide

theorem test_wf_compose_count :
    (Instr.composeU16 (List.replicate 256 0)).wf = false ∧ (Instr.composeU32 (List.replicate 256 0)).wf = false ∧
    (Instr.composeI32 (List.replicate 256 0)).wf = false ∧ (Instr.composeF32 (List.replicate 256 0)).wf = false := by
  simp only [Instr.wf, List.length_replicate]
  decide

theorem test_wf_request_counts :
    (Instr.reqReadHolding 0 0 0 0).wf = false ∧ (Instr.reqReadHolding 0 0 0 126).wf = false ∧
    (Instr.reqReadHolding 0 0 0 125).wf = true ∧ (Instr.reqWriteMultiple 0 0 0 []).wf = false ∧
    (Instr.reqWriteMultiple 0 0 0 (List.replicate 124 0)).wf = false ∧
    (Instr.reqWriteMultiple 0 0 0 (List.replicate 123 0)).wf = true := by
  simp only [Instr.wf, List.length_replicate]
  decide

theorem test_wf_byte_count :
    (Instr.rspReadHolding 0 0 (List.replicate 252 0)).wf = false ∧
    (Instr.rspReadHolding 0 0 (List.replicate 251 0)).wf = true := by
  simp only [Instr.wf, List.length_replicate]
  decide

/-! ## Parameters (R6) -/

/-- R6: MAX_READ is at most 125 and fits a read response (3 + 2 × 125 ≤ MAX_LEN), and a write request's byte count fits a byte. -/
theorem test_parameters_fit :
    3 + 2 * Config.maxRead ≤ Config.maxLen ∧ 2 * Config.maxWrite ≤ 255 ∧ Config.rxBufBytes = 260 ∧
    (Config.maxPending { tidReset := 0, pendingTop := 0xFFFF } = 65536) ∧
    Config.maxPending { tidReset := 0, pendingTop := 0 } = 1 := by decide

/-! ## Decoding: one word of each row, written out from its encoding -/

theorem test_decode_enc_read : decodeCmd [0x0100006B, 0x00000003] = .instr (.encRead 0x006B 0x0003) [] := by decide
theorem test_decode_enc_write : decodeCmd [0x02000001, 0x00000002, 0x0000000A, 0x00000102, 0x35000000] =
    .instr (.encWrite 0x0001 [0x000A, 0x0102]) [0x35000000] := by decide
theorem test_decode_read_u16 : decodeCmd [0x11000005] = .instr (.readU16 0x0005) [] := by decide
theorem test_decode_read_u32 : decodeCmd [0x1200FFFE] = .instr (.readU32 0xFFFE) [] := by decide
theorem test_decode_read_i32 : decodeCmd [0x13008001] = .instr (.readI32 0x8001) [] := by decide
theorem test_decode_read_f32 : decodeCmd [0x140003F1] = .instr (.readF32 1009) [] := by decide
theorem test_decode_write_u16 : decodeCmd [0x19000010, 0x0000BEEF] = .instr (.writeU16 0x0010 0xBEEF) [] := by decide
theorem test_decode_write_u32 : decodeCmd [0x1A000100, 0x12345678] = .instr (.writeU32 0x0100 0x12345678) [] := by decide
theorem test_decode_write_i32 : decodeCmd [0x1B000200, 0xFFFFFFFE] = .instr (.writeI32 0x0200 0xFFFFFFFE) [] := by decide
theorem test_decode_write_f32 : decodeCmd [0x1C0003F1, 0x3F9E0419] = .instr (.writeF32 1009 0x3F9E0419) [] := by decide
theorem test_decode_compose_u16 : decodeCmd [0x21010000, 0x0000ABCD] = .instr (.composeU16 [0xABCD]) [] := by decide
theorem test_decode_compose_u32 : decodeCmd [0x22020000, 0x00001234, 0x00005678] = .instr (.composeU32 [0x1234, 0x5678]) [] := by
  decide
theorem test_decode_compose_i32 : decodeCmd [0x23020000, 0x0000FFFF, 0x0000FFFE] = .instr (.composeI32 [0xFFFF, 0xFFFE]) [] := by
  decide
theorem test_decode_compose_f32 : decodeCmd [0x24020000, 0x00003F80, 0x00000000] = .instr (.composeF32 [0x3F80, 0x0000]) [] := by
  decide
theorem test_decode_decompose_u16 : decodeCmd [0x29000000, 0x000000FF] = .instr (.decomposeU16 0x00FF) [] := by decide
theorem test_decode_decompose_u32 : decodeCmd [0x2A000000, 0x12345678] = .instr (.decomposeU32 0x12345678) [] := by decide
theorem test_decode_decompose_i32 : decodeCmd [0x2B000000, 0x80000000] = .instr (.decomposeI32 0x80000000) [] := by decide
theorem test_decode_decompose_f32 : decodeCmd [0x2C000000, 0x3F9E0419] = .instr (.decomposeF32 0x3F9E0419) [] := by decide
theorem test_decode_set_unit : decodeCmd [0x31110000] = .instr (.setUnit 0x11) [] := by decide
theorem test_decode_reset_counters : decodeCmd [0x32000000] = .instr .resetCounters [] := by decide
theorem test_decode_csr_read : decodeCmd [0x33080000] = .instr (.csrRead 0x08) [] := by decide
theorem test_decode_expire : decodeCmd [0x34000007] = .instr (.expire 0x0007) [] := by decide
theorem test_decode_link_lost : decodeCmd [0x35000000] = .instr .linkLost [] := by decide

/-- The example of R110. -/
theorem test_decode_req_read_holding :
    decodeRequest [0x00, 0x01, 0x00, 0x00, 0x00, 0x06, 0x11, 0x03, 0x00, 0x6B, 0x00, 0x03] =
      .ok (.reqReadHolding 0x0001 0x11 0x006B 3) := by decide

/-- The example of R111. -/
theorem test_decode_req_write_multiple :
    decodeRequest
        [0x00, 0x02, 0x00, 0x00, 0x00, 0x0B, 0x11, 0x10, 0x00, 0x01, 0x00, 0x02, 0x04, 0x00, 0x0A, 0x01, 0x02] =
      .ok (.reqWriteMultiple 0x0002 0x11 0x0001 [0x000A, 0x0102]) := by decide

/-- DV1; and an odd byte count, which R129 lets through to its count check. -/
theorem test_decode_rsp_read_holding :
    decodeResponse [0x00, 0x00, 0x00, 0x00, 0x00, 0x07, 0x01, 0x03, 0x04, 0x12, 0x34, 0x56, 0x78] =
      .ok (.rspReadHolding 0x0000 0x01 [0x12, 0x34, 0x56, 0x78]) ∧
    decodeResponse [0x12, 0x34, 0x00, 0x00, 0x00, 0x04, 0x01, 0x03, 0x01, 0xAA] = .ok (.rspReadHolding 0x1234 0x01 [0xAA]) := by
  decide

/-- DV12. -/
theorem test_decode_rsp_write_multiple :
    decodeResponse [0x00, 0x00, 0x00, 0x00, 0x00, 0x06, 0x01, 0x10, 0x00, 0x10, 0x00, 0x02] =
      .ok (.rspWriteMultiple 0x0000 0x01 0x0010 0x0002) := by decide

/-- DV8. -/
theorem test_decode_rsp_exception :
    decodeResponse [0x00, 0x00, 0x00, 0x00, 0x00, 0x03, 0x01, 0x90, 0x02] = .ok (.rspException 0x0000 0x01 0x10 0x02) := by decide

/-- No two opcodes share an OP value (R72). -/
theorem test_opcodes_distinct : (opcodes.map Opcode.op).Nodup := by decide

/-- E6, E7, K10, K11, K19, CV9, CV17: reserved fields and an unassigned OP; E11's words are all consumed. -/
theorem test_decode_illegal :
    decodeCmd [0x01010000, 1, 7] = .illegal .reservedField [7] ∧ decodeCmd [0x01000000, 0x00010001, 7] = .illegal .reservedField [7] ∧
    decodeCmd [0x21010000, 0x0001ABCD, 7] = .illegal .reservedField [7] ∧
    decodeCmd [0x21010001, 0x0000ABCD, 7] = .illegal .reservedField [7] ∧
    decodeCmd [0x2A010000, 0x12345678, 7] = .illegal .reservedField [7] ∧ decodeCmd [0x32000001, 7] = .illegal .reservedField [7] ∧
    decodeCmd [0x00000000, 7] = .illegal .unassignedOpcode [7] ∧
    decodeCmd [0x02000001, 2, 0x00010000, 5, 7] = .illegal .reservedField [7] := by decide

/-- A command that has not wholly arrived is not taken (log 3). -/
theorem test_decode_incomplete :
    decodeCmd [] = .incomplete ∧ decodeCmd [0x02000001] = .incomplete ∧ decodeCmd [0x02000001, 2, 10] = .incomplete ∧
    decodeCmd [0x22020000, 1] = .incomplete := by decide

/-! ## States and observations -/

/-- U1 of spec/95_test_vectors.md: reset followed by SET_UNIT 0x01. -/
def unitOne : State := { State.reset with unit := { valid := true, id := 0x01 } }

/-- The entry of READ_U16 0 as transaction 0 of U1. -/
def readEntry : Entry :=
  { tid := 0x0000, unit := 0x01, fc := .readHolding, addr := 0x0000, count := 1, view := .u16, wvals := [] }

/-- The entry of WRITE_U16 0x0010, 0xBEEF as transaction 0 of U1. -/
def writeEntry : Entry :=
  { tid := 0x0000, unit := 0x01, fc := .writeMultiple, addr := 0x0010, count := 1, view := .u16, wvals := [0xBEEF] }

/-- U1 after READ_U16 0 was sent. -/
def reading : State := { unitOne with nextTid := 1, pend := [readEntry], txBytes := 12 }

/-- U1 after WRITE_U16 0x0010, 0xBEEF was sent. -/
def writing : State := { unitOne with nextTid := 1, pend := [writeEntry], txBytes := 15 }

/-- What stands on TX, RES and CPL, the records packed (R80, R81). -/
structure Seen where
  tx  : List Byte
  res : List (List Word)
  cpl : List (List Word)
deriving DecidableEq, Repr

/-- What a step has put on the output ports. -/
def ports : Host.Outcome State Fault Refusal → Option Seen
  | .next t => some ⟨t.tx, t.res.map Result.pack, t.cpl.map Completion.pack⟩
  | .fault _ | .refused _ => none

/-- The next state. -/
def after : Host.Outcome State Fault Refusal → Option State
  | .next t => some t
  | .fault _ | .refused _ => none

/-- The fixed result of a failing command: its status number and zeros (R80). -/
def failing (code : Byte) : Option Seen := some ⟨[], [[code ++ (0 : BitVec 24), 0]], []⟩

/-! ## One step of each instruction -/

/-- E2. -/
theorem test_enc_read :
    ports (step ({ unitOne with unit := { valid := true, id := 0x11 } }.offerCommand [0x0100006B, 0x00000003])) =
      some ⟨[0x00, 0x00, 0x00, 0x00, 0x00, 0x06, 0x11, 0x03, 0x00, 0x6B, 0x00, 0x03], [[0x00000000, 0x00000000]], []⟩ := by decide

/-- E1, E3, E5, E9. -/
theorem test_enc_read_fails :
    ports (step (State.reset.offerCommand [0x01000000, 1])) = failing 0x12 ∧
    ports (step (unitOne.offerCommand [0x01000000, 0])) = failing 0x16 ∧
    ports (step (unitOne.offerCommand [0x01000000, 0x7E])) = failing 0x16 ∧
    ports (step ({ reading with cfg := { tidReset := 0xFFFF, pendingTop := 0 } }.offerCommand [0x01000000, 1])) = failing 0x21 := by
  decide

/-- E14. -/
theorem test_enc_write :
    ports (step ({ unitOne with unit := { valid := true, id := 0x11 }, nextTid := 2 }.offerCommand
        [0x02000001, 0x00000002, 0x0000000A, 0x00000102])) =
      some ⟨[0x00, 0x02, 0x00, 0x00, 0x00, 0x0B, 0x11, 0x10, 0x00, 0x01, 0x00, 0x02, 0x04, 0x00, 0x0A, 0x01, 0x02],
        [[0x00000002, 0x00000000]], []⟩ := by decide

set_option maxRecDepth 4000 in
/-- E10, E11 and E13. -/
theorem test_enc_write_fails :
    ports (step (unitOne.offerCommand [0x02000001, 0])) = failing 0x16 ∧
    ports (step (unitOne.offerCommand (0x02000001 :: 0x7C :: List.replicate 124 0))) = failing 0x16 ∧
    ports (step (unitOne.offerCommand [0x02000001, 2, 0x00010000, 5])) = failing 0x20 := by decide

/-- K20. -/
theorem test_read_u16 : ports (step (unitOne.offerCommand [0x11000000])) =
    some ⟨[0x00, 0x00, 0x00, 0x00, 0x00, 0x06, 0x01, 0x03, 0x00, 0x00, 0x00, 0x01], [[0, 0]], []⟩ := by decide

/-- K21, K28. -/
theorem test_read_u32 : ports (step (unitOne.offerCommand [0x12000000])) =
    some ⟨[0x00, 0x00, 0x00, 0x00, 0x00, 0x06, 0x01, 0x03, 0x00, 0x00, 0x00, 0x02], [[0, 0]], []⟩ ∧
    ports (step (unitOne.offerCommand [0x12010000])) = failing 0x20 := by decide

/-- K22. -/
theorem test_read_i32 : ports (step (unitOne.offerCommand [0x13000000])) =
    some ⟨[0x00, 0x00, 0x00, 0x00, 0x00, 0x06, 0x01, 0x03, 0x00, 0x00, 0x00, 0x02], [[0, 0]], []⟩ := by decide

/-- P1, step 4: the entry keeps the F32 view. -/
theorem test_read_f32 :
    (after (step ({ unitOne with nextTid := 1, unit := { valid := true, id := 0x0C } }.offerCommand [0x140003F1]))).map
        (fun t => (t.tx, t.pend, t.nextTid)) =
      some ([0x00, 0x01, 0x00, 0x00, 0x00, 0x06, 0x0C, 0x03, 0x03, 0xF1, 0x00, 0x02],
        [{ tid := 1, unit := 0x0C, fc := .readHolding, addr := 0x03F1, count := 2, view := .f32, wvals := [] }], 2) := by decide

/-- K27. -/
theorem test_write_u16 : ports (step (unitOne.offerCommand [0x19000010, 0x0000BEEF])) =
    some ⟨[0x00, 0x00, 0x00, 0x00, 0x00, 0x09, 0x01, 0x10, 0x00, 0x10, 0x00, 0x01, 0x02, 0xBE, 0xEF], [[0, 0]], []⟩ := by decide

/-- E15: the entry that still holds the transaction ID is completed with Timeout, before the frame. -/
theorem test_write_u16_evicts :
    (after (step ({ unitOne with pend := [{ readEntry with view := .raw }], txBytes := 12 }.offerCommand
        [0x19000010, 0x0000BEEF]))).map
        (fun t => (t.cpl.map Completion.pack, t.nextTid, t.pend, t.txBytes, t.out.length)) =
      some ([[0x10000000, 0x01030000, 0x00000001, 0x00000000, 0x00000000]], 1, [writeEntry], 27, 3) := by decide

/-- K24. -/
theorem test_write_u32 : ports (step (unitOne.offerCommand [0x1A000100, 0x12345678])) =
    some ⟨[0x00, 0x00, 0x00, 0x00, 0x00, 0x0B, 0x01, 0x10, 0x01, 0x00, 0x00, 0x02, 0x04, 0x12, 0x34, 0x56, 0x78], [[0, 0]], []⟩ := by
  decide

/-- K25. -/
theorem test_write_i32 : ports (step (unitOne.offerCommand [0x1B000200, 0xFFFFFFFE])) =
    some ⟨[0x00, 0x00, 0x00, 0x00, 0x00, 0x0B, 0x01, 0x10, 0x02, 0x00, 0x00, 0x02, 0x04, 0xFF, 0xFF, 0xFF, 0xFE], [[0, 0]], []⟩ := by
  decide

/-- K26. -/
theorem test_write_f32 : ports (step (unitOne.offerCommand [0x1C000000, 0x7FC00001])) =
    some ⟨[0x00, 0x00, 0x00, 0x00, 0x00, 0x0B, 0x01, 0x10, 0x00, 0x00, 0x00, 0x02, 0x04, 0x7F, 0xC0, 0x00, 0x01], [[0, 0]], []⟩ := by
  decide

/-- K1, K9. -/
theorem test_compose_u16 : ports (step (State.reset.offerCommand [0x21010000, 0xABCD])) = some ⟨[], [[0, 0x0000ABCD]], []⟩ ∧
    ports (step (State.reset.offerCommand [0x21000000])) = failing 0x13 := by decide

/-- K2, K7, K8. -/
theorem test_compose_u32 :
    ports (step (State.reset.offerCommand [0x22020000, 0x1234, 0x5678])) = some ⟨[], [[0, 0x12345678]], []⟩ ∧
    ports (step (State.reset.offerCommand [0x22010000, 0x1234])) = failing 0x13 ∧
    ports (step (State.reset.offerCommand [0x22030000, 1, 2, 3])) = failing 0x13 := by decide

/-- K3, K4, and W9's reading of the pattern as −2. -/
theorem test_compose_i32 :
    ports (step (State.reset.offerCommand [0x23020000, 0xFFFF, 0xFFFE])) = some ⟨[], [[0, 0xFFFFFFFE]], []⟩ ∧
    ports (step (State.reset.offerCommand [0x23020000, 0x8000, 0x0000])) = some ⟨[], [[0, 0x80000000]], []⟩ ∧
    int32Of 0xFFFFFFFE = -2 ∧ int32Of 0x80000000 = -2147483648 := by decide

/-- K5, K6. -/
theorem test_compose_f32 :
    ports (step (State.reset.offerCommand [0x24020000, 0x3F80, 0x0000])) = some ⟨[], [[0, 0x3F800000]], []⟩ ∧
    ports (step (State.reset.offerCommand [0x24020000, 0x7F80, 0x0001])) = some ⟨[], [[0, 0x7F800001]], []⟩ := by decide

/-- K12. -/
theorem test_decompose_u16 :
    ports (step (State.reset.offerCommand [0x29000000, 0x00FF])) = some ⟨[], [[0x00010000, 0, 0x000000FF]], []⟩ := by decide

/-- K14. -/
theorem test_decompose_u32 :
    ports (step (State.reset.offerCommand [0x2A000000, 0x12345678])) = some ⟨[], [[0x00020000, 0, 0x1234, 0x5678]], []⟩ := by decide

/-- K16. -/
theorem test_decompose_i32 :
    ports (step (State.reset.offerCommand [0x2B000000, 0x80000000])) = some ⟨[], [[0x00020000, 0, 0x8000, 0x0000]], []⟩ := by decide

/-- K17. -/
theorem test_decompose_f32 :
    ports (step (State.reset.offerCommand [0x2C000000, 0x3F9E0419])) = some ⟨[], [[0x00020000, 0, 0x3F9E, 0x0419]], []⟩ := by decide

/-- CV1, CV3. -/
theorem test_set_unit :
    (after (step (State.reset.offerCommand [0x31110000]))).map (fun t => (t.unit, t.csr 0x01)) =
      some ({ valid := true, id := 0x11 }, some 0x00000111) ∧
    ports (step (State.reset.offerCommand [0x31110001])) = failing 0x20 := by decide

/-- CV8. -/
theorem test_reset_counters :
    (after (step ({ State.reset with txBytes := 24, rxBytes := 11, frameErrors := 1, unmatched := 1 }.offerCommand [0x32000000]))).map
        (fun t => (t.txBytes, t.rxBytes, t.frameErrors, t.unmatched)) = some (0, 0, 1, 1) := by decide

/-- CV4 to CV7. -/
theorem test_csr_read :
    ports (step (State.reset.offerCommand [0x33080000])) = some ⟨[], [[0, 0x00037B7D]], []⟩ ∧
    ports (step (State.reset.offerCommand [0x33090000])) = failing 0x20 ∧
    ports (step ((State.resetWith { tidReset := 0, pendingTop := 0 }).offerCommand [0x33080000])) = some ⟨[], [[0, 0x00007B7D]], []⟩ ∧
    ports (step ((State.resetWith { tidReset := 0, pendingTop := 0xFFFF }).offerCommand [0x33080000])) =
      some ⟨[], [[0, 0xFFFF7B7D]], []⟩ := by decide

/-- DV28 and P2, step 6: RX_LEVEL and DEC. -/
theorem test_csr_read_receiver :
    ports (step ({ reading with rxBuf := [0, 0, 0] }.offerCommand [0x33020000])) = some ⟨[], [[0, 0x00000300]], []⟩ ∧
    ports (step ({ reading with rxBuf := [0, 0, 0, 0, 0, 7, 1, 3, 4, 0], dec := .awaitBody }.offerCommand [0x33020000])) =
      some ⟨[], [[0, 0x00000A01]], []⟩ := by decide

/-- CV10, CV11. -/
theorem test_expire :
    ports (step (reading.offerCommand [0x34000000])) =
      some ⟨[], [[0, 0]], [[0x10000000, 0x01030100, 0x00000001, 0x00000000, 0x00000000]]⟩ ∧
    ports (step (unitOne.offerCommand [0x34000000])) = failing 0x22 := by decide

/-- CV14, with the two entries of ENC_READ 0, 1. -/
theorem test_link_lost :
    (after (step ({ unitOne with
        pend := [{ readEntry with view := .raw }, { readEntry with tid := 1, view := .raw }]
        rxBuf := [0, 0, 0] }.offerCommand [0x35000000]))).map
      (fun t => (t.cpl.map Completion.pack, t.pend, t.rxBuf, t.dec)) =
    some ([[0x11000000, 0x01030000, 0x00000001, 0, 0], [0x11000001, 0x01030000, 0x00000001, 0, 0]], [], [], .awaitHeader) := by
  decide

/-- The emission of R110's frame. -/
theorem test_req_read_holding :
    (after (exec (.reqReadHolding 0x0001 0x11 0x006B 3) State.reset)).map (fun t => (t.tx, t.txBytes)) =
      some ([0x00, 0x01, 0x00, 0x00, 0x00, 0x06, 0x11, 0x03, 0x00, 0x6B, 0x00, 0x03], 12) := by decide

/-- The emission of R111's frame. -/
theorem test_req_write_multiple :
    (after (exec (.reqWriteMultiple 0x0002 0x11 0x0001 [0x000A, 0x0102]) State.reset)).map (fun t => (t.tx, t.txBytes)) =
      some ([0x00, 0x02, 0x00, 0x00, 0x00, 0x0B, 0x11, 0x10, 0x00, 0x01, 0x00, 0x02, 0x04, 0x00, 0x0A, 0x01, 0x02], 17) := by decide

/-- K20 and DV3. -/
theorem test_rsp_read_holding :
    ports (step (reading.offerResponse [0x00, 0x00, 0x00, 0x00, 0x00, 0x05, 0x01, 0x03, 0x02, 0x12, 0x34])) =
      some ⟨[], [], [[0x00000000, 0x01030101, 0x00000001, 0x00001234, 0x00000000, 0x00001234]]⟩ ∧
    ports (step (reading.offerResponse [0x00, 0x00, 0x00, 0x00, 0x00, 0x03, 0x01, 0x03, 0x00])) =
      some ⟨[], [], [[0x13000000, 0x01030100, 0x00000001, 0x00000000, 0x00000000]]⟩ := by decide

/-- DV19: no entry of the transaction ID. -/
theorem test_rsp_read_holding_unmatched :
    (after (step (reading.offerResponse [0x00, 0x09, 0x00, 0x00, 0x00, 0x05, 0x01, 0x03, 0x02, 0x12, 0x34]))).map
      (fun t => (t.unmatched, t.pend, t.rxBuf, t.dec, t.out)) = some (1, [readEntry], [], .awaitHeader, []) := by decide

/-- DV11, DV12, DV13. -/
theorem test_rsp_write_multiple :
    ports (step (writing.offerResponse [0x00, 0x00, 0x00, 0x00, 0x00, 0x06, 0x01, 0x10, 0x00, 0x10, 0x00, 0x01])) =
      some ⟨[], [], [[0x00000000, 0x01100101, 0x00100001, 0x00000000, 0x00100001, 0x0000BEEF]]⟩ ∧
    ports (step (writing.offerResponse [0x00, 0x00, 0x00, 0x00, 0x00, 0x06, 0x01, 0x10, 0x00, 0x10, 0x00, 0x02])) =
      some ⟨[], [], [[0x13000000, 0x01100101, 0x00100001, 0x00000000, 0x00100002, 0x0000BEEF]]⟩ ∧
    ports (step (writing.offerResponse [0x00, 0x00, 0x00, 0x00, 0x00, 0x06, 0x01, 0x10, 0x00, 0x11, 0x00, 0x01])) =
      some ⟨[], [], [[0x00000000, 0x01100101, 0x00100001, 0x00000000, 0x00110001, 0x0000BEEF]]⟩ := by decide

/-- DV9: a write response to a read. -/
theorem test_rsp_write_multiple_wrong_function :
    ports (step (reading.offerResponse [0x00, 0x00, 0x00, 0x00, 0x00, 0x06, 0x01, 0x10, 0x00, 0x00, 0x00, 0x01])) =
      some ⟨[], [], [[0x14000000, 0x01030100, 0x00000001, 0x00000000, 0x00000001]]⟩ := by decide

/-- DV4, DV6, DV7, DV15. -/
theorem test_rsp_exception :
    ports (step (reading.offerResponse [0x00, 0x00, 0x00, 0x00, 0x00, 0x03, 0x01, 0x83, 0x01])) =
      some ⟨[], [], [[0x01010000, 0x01030100, 0x00000001, 0x00000000, 0x00000000]]⟩ ∧
    ports (step (reading.offerResponse [0x00, 0x00, 0x00, 0x00, 0x00, 0x03, 0x01, 0x83, 0x0C])) =
      some ⟨[], [], [[0x0C0C0000, 0x01030100, 0x00000001, 0x00000000, 0x00000000]]⟩ ∧
    ports (step (reading.offerResponse [0x00, 0x00, 0x00, 0x00, 0x00, 0x03, 0x01, 0x83, 0x0B])) =
      some ⟨[], [], [[0x0B0B0000, 0x01030100, 0x00000001, 0x00000000, 0x00000000]]⟩ ∧
    ports (step (writing.offerResponse [0x00, 0x00, 0x00, 0x00, 0x00, 0x03, 0x01, 0x90, 0x04])) =
      some ⟨[], [], [[0x04040000, 0x01100101, 0x00100001, 0x00000000, 0x00000000, 0x0000BEEF]]⟩ := by decide

/-- DV8 and DV10: the checks before the exception code. -/
theorem test_rsp_exception_checks :
    ports (step (reading.offerResponse [0x00, 0x00, 0x00, 0x00, 0x00, 0x03, 0x01, 0x90, 0x02])) =
      some ⟨[], [], [[0x14020000, 0x01030100, 0x00000001, 0x00000000, 0x00000000]]⟩ ∧
    ports (step (reading.offerResponse [0x00, 0x00, 0x00, 0x00, 0x00, 0x03, 0x02, 0x83, 0x02])) =
      some ⟨[], [], [[0x15020000, 0x01030100, 0x00000001, 0x00000000, 0x00000000]]⟩ := by decide

/-! ## The receive step (R121, R123, R124, R125) -/

/-- DV22, DV23, DV24: framing errors at the 8th byte. -/
theorem test_header_errors :
    (after (step { reading with rxBuf := [0, 0, 0, 0, 0, 3, 1], rxIn := [4], turns := [.rx] })).map
      (fun t => (t.frameErrors, t.rxBuf, t.dec, t.rxBytes, t.out)) = some (1, [], .awaitHeader, 1, []) ∧
    (after (step { reading with rxBuf := [0, 0, 0, 0, 0, 2, 1], rxIn := [3], turns := [.rx] })).map State.frameErrors = some 1 ∧
    (after (step { reading with rxBuf := [0, 0, 0, 0, 0, 0xFF, 1], rxIn := [3], turns := [.rx] })).map State.frameErrors =
      some 1 := by decide

/-- DV25: the length field is 5 and the byte count 4. -/
theorem test_byte_count_error :
    (after (step { reading with rxBuf := [0, 0, 0, 0, 0, 5, 1, 3], dec := .awaitBody, rxIn := [4], turns := [.rx] })).map
      (fun t => (t.frameErrors, t.rxBuf, t.pend)) = some (1, [], [readEntry]) := by decide

/-- The model's faults, in decoder states that R27 excludes (log 5). -/
theorem test_excluded_decoder_states_stop :
    step { reading with dec := .dispatched, rxIn := [0], turns := [.rx] } = .fault .dispatchedBetweenSteps ∧
    step { reading with dec := .awaitBody, rxIn := [0], turns := [.rx] } = .fault .bodyWithoutHeader :=
  ⟨rfl, rfl⟩

/-! ## The host's table words (log 9) -/

/-- A command row and a frame row: the decoder gives the instruction, and the first step after reset runs it. -/
theorem test_table_words :
    decodeTableWord 32 0x33000000 = some (.csrRead 0) ∧ decodeTableWord 64 0x000000030100006B = some (.encRead 0x006B 3) ∧
    decodeTableWord 32 0x02000001 = some (.encWrite 0x0001 []) ∧ decodeTableWord 32 0x22020000 = some (.composeU32 [0, 0]) ∧
    decodeTableWord 8 0x03 = some (.rspReadHolding 0 0 []) ∧ decodeTableWord 8 0x10 = some (.rspWriteMultiple 0 0 0 0) ∧
    decodeTableWord 8 0x80 = some (.rspException 0 0 0 0) ∧
    after (step (State.reset.withFetchWord 32 0x33080000)) = after (exec (.csrRead 8) State.reset) ∧
    (after (step (State.reset.withFetchWord 8 0x80))).map State.unmatched = some 1 := by decide

/-! ## Witnesses: for each statement with hypotheses, states and operands that meet them -/

/-- A sound state with two entries and a partial frame in AWAIT_BODY. -/
def busy : State :=
  { unitOne with
    nextTid := 2
    pend := [readEntry, { writeEntry with tid := 1 }]
    rxBuf := [0x00, 0x00, 0x00, 0x00, 0x00, 0x05, 0x01, 0x03, 0x02, 0x12]
    dec := .awaitBody }

/-- A table of MAX_PENDING = 1 entries, full. -/
def fullTable : State := { reading with cfg := { tidReset := 0, pendingTop := 0 } }

theorem witness_OpcodeMapIsTheTable :
    (∀ n ∈ [0x00, 0x03, 0x10, 0x15, 0x18, 0x1D, 0x20, 0x25, 0x28, 0x2D, 0x30, 0x36, 0xFF], Unassigned n) ∧
    ∀ r ∈ opcodeRows, ¬ Unassigned r.1 := by
  unfold Unassigned
  decide

theorem witness_DecodeOfEncodeIsTheInstruction :
    (Instr.encWrite 0 []).wf = true ∧ (Instr.encWrite 0xFFFF (List.replicate 65535 0)).wf = true ∧
    (Instr.composeU16 (List.replicate 255 0xFFFF)).wf = true ∧ (Instr.reqReadHolding 0xFFFF 0xFF 0xFFFF 125).wf = true ∧
    (Instr.reqWriteMultiple 0 0 0 (List.replicate 123 0xFFFF)).wf = true ∧ (Instr.rspReadHolding 0 0 []).wf = true ∧
    (Instr.rspReadHolding 0 0 (List.replicate 251 0)).wf = true := by
  simp only [Instr.wf, List.length_replicate]
  decide

theorem witness_CommandStreamIsDelimited :
    (Instr.encWrite 1 [7]).wf = true ∧ encode (.encWrite 1 [7]) = .cmd [0x02000001, 0x00000001, 0x00000007] := by decide

theorem witness_DecodedCommandWasItsEncoding : decodeCmd [0x22020000, 0xFFFF, 0x0000, 0x35000000] =
    .instr (.composeU32 [0xFFFF, 0x0000]) [0x35000000] := by decide

theorem witness_DecodedResponseWasItsEncoding :
    decodeResponse [0xFF, 0xFF, 0x00, 0x00, 0x00, 0x03, 0x01, 0xFF, 0x00] = .ok (.rspException 0xFFFF 0x01 0x7F 0x00) ∧
    decodeResponse [0x00, 0x00, 0x00, 0x00, 0x00, 0x03, 0x01, 0x03, 0x00] = .ok (.rspReadHolding 0x0000 0x01 []) := by decide

/-- Of the first clause an unassigned OP; of the second a command of each format with a reserved field that is not 0. -/
theorem witness_IllegalCommandsChangeNothing :
    Unassigned ((0x36000000 : Word).toNat / 2 ^ 24) ∧
    ∀ x ∈ [((0x11010000 : Word), ([] : List Word), Opcode.readU16), (0x01000000, [0x00010000], .encRead),
        (0x02000000, [1, 0x00010000], .encWrite), (0x02010000, [0], .encWrite), (0x19000000, [0x80000000], .writeU16),
        (0x1A010000, [5], .writeU32), (0x22020000, [1, 0x00010000], .composeU32), (0x21000001, [], .composeU16),
        (0x29000001, [0], .decomposeU16), (0x2A800000, [0], .decomposeU32), (0x31008000, [], .setUnit), (0x33000001, [], .csrRead),
        (0x34800000, [], .expire), (0x32000001, [], .resetCounters), (0x35800000, [], .linkLost)],
      opcodeOf (x.1.extractLsb' 24 8) = some x.2.2 ∧
      operandWords x.2.2.format (x.1.extractLsb' 16 8) (x.2.1.headD 0) = x.2.1.length ∧
      decodeCmd (x.1 :: x.2.1) = .illegal .reservedField [] := by
  unfold Unassigned
  decide

theorem witness_reserved_fields_are_not_zero :
    ¬ ReservedZero .A 0x01 0 [] ∧ ¬ ReservedZero .AC 0 0 [0x00010000] ∧ ¬ ReservedZero .ACD 0 0 [1, 0x00010000] ∧
    ¬ ReservedZero .AV16 0 0 [0x80000000] ∧ ¬ ReservedZero .AV32 1 0 [5] ∧ ¬ ReservedZero .NW 2 0 [1, 0x00010000] ∧
    ¬ ReservedZero .NW 0 1 [] ∧ ¬ ReservedZero .V16 0 1 [0] ∧ ¬ ReservedZero .V32 0x80 0 [0] ∧ ¬ ReservedZero .U 0 0x8000 [] ∧
    ¬ ReservedZero .C 0 1 [] ∧ ¬ ReservedZero .T 0x80 0 [] ∧ ¬ ReservedZero .N 0 1 [] := by simp [ReservedZero]

theorem witness_StepRunsTheDecodedCommand :
    (reading.offerCommand [0x34000000, 0x35000000]).turns = [.cmd] ∧
    decodeCmd (reading.offerCommand [0x34000000, 0x35000000]).cmdIn = .instr (.expire 0) [0x35000000] := by decide

theorem witness_StepRunsTheCompletedFrame :
    { busy with rxIn := [0x34], turns := [.rx] }.dec = .awaitBody ∧
    decodeResponse (busy.rxBuf ++ [0x34]) = .ok (.rspReadHolding 0 1 [0x12, 0x34]) := by decide

theorem witness_StepWaitsWithNothingToTake :
    State.reset.turns = [] ∧ { State.reset with turns := [.rx] }.rxIn = [] ∧
    decodeCmd { State.reset with turns := [.cmd], cmdIn := [0x02000001] }.cmdIn = .incomplete := by decide

theorem witness_ResetEventSetsEveryElement : { busy with turns := [.reset] }.turns = .reset :: [] := rfl

theorem witness_sound_states : State.reset.Sound ∧ busy.Sound ∧ reading.Sound ∧ writing.Sound ∧ fullTable.Sound :=
  ⟨⟨by decide, by decide, by decide, by decide⟩, ⟨by decide, by decide, by decide, by decide⟩,
    ⟨by decide, by decide, by decide, by decide⟩, ⟨by decide, by decide, by decide, by decide⟩,
    ⟨by decide, by decide, by decide, by decide⟩⟩

/-- Two states are not sound: DEC between steps is DISPATCHED, and two entries of one tid. -/
theorem witness_unsound_states :
    ¬ { reading with dec := .dispatched }.Sound ∧ ¬ { reading with pend := [readEntry, writeEntry] }.Sound :=
  ⟨fun h => absurd h.rx (by decide), fun h => absurd h.distinct (by decide)⟩

theorem witness_SoundStateStaysSound : ∃ s t : State, s.Sound ∧ step s = .next t ∧ s.pend ≠ t.pend :=
  ⟨{ busy with rxIn := [0x34], turns := [.rx] }, _, ⟨by decide, by decide, by decide, by decide⟩, rfl, by decide⟩

/-- A sound state, and a step from a sound state: the 10th byte of a frame. -/
theorem witness_ReceiveBufferIsBounded :
    (busy.Sound ∧ busy.dec = .awaitBody ∧
      busy.rxBuf = 0x00 :: 0x00 :: 0x00 :: 0x00 :: 0x00 :: 0x05 :: 0x01 :: 0x03 :: [0x02, 0x12]) ∧
    ∃ s t : State, s.Sound ∧ step s = .next t ∧ t.dec = .awaitBody ∧
      t.rxBuf = 0x00 :: 0x00 :: 0x00 :: 0x00 :: 0x00 :: 0x05 :: 0x01 :: 0x03 :: [0x02, 0x12] :=
  ⟨⟨⟨by decide, by decide, by decide, by decide⟩, rfl, rfl⟩,
    { busy with rxBuf := [0, 0, 0, 0, 0, 5, 1, 3, 2], rxIn := [0x12], turns := [.rx] }, _,
    ⟨by decide, by decide, by decide, by decide⟩, rfl, rfl, rfl⟩

theorem witness_OutputsOnlyGrow : ∃ s t : State, step s = .next t ∧ t.out ≠ s.out :=
  ⟨State.reset.offerCommand [0x35000000], _, rfl, by decide⟩

theorem witness_OneResultPerCommand :
    (∃ s t : State, step s = .next t ∧ s.turns = [.cmd] ∧ decodeCmd s.cmdIn ≠ .incomplete) ∧
    ∃ s t : State, step s = .next t ∧ ∀ ts, s.turns ≠ .cmd :: ts :=
  ⟨⟨State.reset.offerCommand [0x35000000], _, rfl, by decide, by decide⟩,
    ⟨{ busy with rxIn := [0x34], turns := [.rx] }, _, rfl, by simp⟩⟩

theorem witness_CompletionsBalanceEntries : ∃ s t : State, (∀ ts, s.turns ≠ .reset :: ts) ∧ step s = .next t ∧
    t.cpl.length ≠ s.cpl.length :=
  ⟨{ busy with rxIn := [0x34], turns := [.rx] }, _, by simp, rfl, by decide⟩

/-- One entry stays and one is completed. -/
theorem witness_EveryEntryIsCompletedExactlyOnce : ∃ s t : State, s.Sound ∧ (∀ ts, s.turns ≠ .reset :: ts) ∧ step s = .next t ∧
    { writeEntry with tid := 1 } ∈ t.pend ∧ readEntry ∈ s.pend ∧ readEntry ∉ t.pend :=
  ⟨{ busy with rxIn := [0x34], turns := [.rx] }, _, ⟨by decide, by decide, by decide, by decide⟩, by simp, rfl, by decide,
    by decide, by decide⟩

/-- A byte kept, a frame completed, a framing error, LINK_LOST and reset. -/
theorem witness_PartialFramesAreNotConsumed :
    (after (step { reading with rxIn := [7], turns := [.rx] })).map State.rxBuf = some [7] ∧
    (after (step { busy with rxIn := [0x34], turns := [.rx] })).map State.rxBuf = some [] ∧
    (after (step { reading with rxBuf := [1, 1, 1, 1, 1, 1, 1], rxIn := [1], turns := [.rx] })).map State.rxBuf = some [] ∧
    (after (step (busy.offerCommand [0x35000000]))).map State.rxBuf = some [] ∧
    (after (step { busy with turns := [.reset] })).map State.rxBuf = some [] := by decide

/-- A witness for each way out of the table: reset, a response, EXPIRE, LINK_LOST and reuse. -/
theorem witness_EntriesLeaveOnlyAsListed :
    (∃ t : State, step { reading with turns := [.reset] } = .next t ∧ readEntry ∉ t.pend) ∧
    (∃ t : State, step { busy with rxIn := [0x34], turns := [.rx] } = .next t ∧ readEntry ∉ t.pend) ∧
    (∃ t : State, step (reading.offerCommand [0x34000000]) = .next t ∧ readEntry ∉ t.pend) ∧
    (∃ t : State, step (reading.offerCommand [0x35000000]) = .next t ∧ readEntry ∉ t.pend) ∧
    ∃ t : State, step ({ reading with nextTid := 0 }.offerCommand [0x12000000]) = .next t ∧ readEntry ∉ t.pend :=
  ⟨⟨_, rfl, by decide⟩, ⟨_, rfl, by decide⟩, ⟨_, rfl, by decide⟩, ⟨_, rfl, by decide⟩, ⟨_, rfl, by decide⟩⟩

theorem witness_ResultStatusesAreThoseListed :
    (∃ t : State, step (State.reset.offerCommand [0x34000000]) = .next t ∧ t.res = [{ status := .noEntry }]) ∧
    decodeCmd (State.reset.offerCommand [0x34000000]).cmdIn = .instr (.expire 0) [] ∧
    decodeCmd (State.reset.offerCommand [0x34010000]).cmdIn = .illegal .reservedField [] :=
  ⟨⟨_, rfl, by decide⟩, by decide, by decide⟩

theorem witness_FailedCommandsChangeNothing : ∃ t : State, (Instr.readU16 5).port = .cmd ∧
    exec (.readU16 5) State.reset = .next t ∧ t.res = State.reset.res ++ [{ status := .deviceIDNotSet }] :=
  ⟨_, rfl, rfl, by decide⟩

theorem witness_OnlySetUnitWritesTheUnit : ∃ s t : State, (∀ ts, s.turns ≠ .reset :: ts) ∧ step s = .next t ∧ t.unit ≠ s.unit :=
  ⟨State.reset.offerCommand [0x31FF0000], _, by simp [State.offerCommand], rfl, by decide⟩

theorem witness_CommandsLeaveTheReceiver : ∃ t : State, (Instr.expire 0).port = .cmd ∧ exec (.expire 0) busy = .next t :=
  ⟨_, rfl, rfl⟩

/-- The unit unset; and the counts 0, 126 (0x03) and 0, 124 (0x10). -/
theorem witness_EncodeCommandsCheckUnitThenCount :
    State.reset.unit.valid = false ∧ unitOne.unit.valid = true ∧ requestOf (.readU32 5) = some ⟨.readHolding, 5, 2, .u32, []⟩ ∧
    ¬ CountAdmitted ⟨.readHolding, 0, 0, .raw, []⟩ ∧ ¬ CountAdmitted ⟨.readHolding, 0, 126, .raw, []⟩ ∧
    ¬ CountAdmitted ⟨.writeMultiple, 0, 0, .raw, []⟩ ∧ ¬ CountAdmitted ⟨.writeMultiple, 0, 124, .raw, List.replicate 124 0⟩ := by
  simp [CountAdmitted, State.reset, State.resetWith, unitOne, requestOf]

theorem witness_FullTableRefusesEncodeCommands :
    fullTable.unit.valid = true ∧ fullTable.pend.length = fullTable.cfg.maxPending ∧
    (∀ e ∈ fullTable.pend, e.tid ≠ fullTable.nextTid) ∧ CountAdmitted ⟨.readHolding, 5, 1, .u16, []⟩ := by
  simp [CountAdmitted, fullTable, reading, unitOne, readEntry, Config.maxPending]

/-- The greatest counts. -/
theorem witness_AdmittedReadsNextState :
    requestOf (.encRead 0xFFFF 125) = some ⟨.readHolding, 0xFFFF, 125, .raw, []⟩ ∧ CountAdmitted ⟨.readHolding, 0xFFFF, 125, .raw, []⟩ ∧
    (∀ e ∈ reading.pend, e.tid ≠ reading.nextTid) ∧ reading.pend.length ≠ reading.cfg.maxPending ∧ reading.unit.valid = true := by
  simp [CountAdmitted, reading, unitOne, readEntry, requestOf, State.reset, State.resetWith, Config.maxPending]

theorem witness_AdmittedWritesNextState :
    requestOf (.encWrite 0 (List.replicate 123 0)) = some ⟨.writeMultiple, 0, 123, .raw, List.replicate 123 0⟩ ∧
    CountAdmitted ⟨.writeMultiple, 0, 123, .raw, List.replicate 123 0⟩ ∧
    (∀ e ∈ reading.pend, e.tid ≠ reading.nextTid) ∧ reading.pend.length ≠ reading.cfg.maxPending ∧ reading.unit.valid = true := by
  refine ⟨by simp [requestOf], ?_⟩
  simp [CountAdmitted, reading, unitOne, readEntry, State.reset, State.resetWith, Config.maxPending]

theorem witness_ReusedTransactionIdIsEvicted :
    Distinct { fullTable with nextTid := 0 } ∧ readEntry ∈ fullTable.pend ∧ readEntry.tid = { fullTable with nextTid := 0 }.nextTid ∧
    fullTable.unit.valid = true :=
  ⟨by simp [Distinct, fullTable, reading], by decide, rfl, rfl⟩

theorem witness_TransactionIdsAreAllocatedInTurn : ∃ t : State, requestOf (.readU16 5) = some ⟨.readHolding, 5, 1, .u16, []⟩ ∧
    exec (.readU16 5) { unitOne with nextTid := 0xFFFF } = .next t ∧ t.nextTid = 0 :=
  ⟨_, rfl, rfl, by decide⟩

theorem witness_EntriesAreSnapshots : ∃ s t : State, step s = .next t ∧ readEntry ∈ t.pend ∧ readEntry ∉ s.pend :=
  ⟨unitOne.offerCommand [0x11000000], _, rfl, by decide, by decide⟩

theorem witness_OnlyAdmissionsAdvanceTheTransactionId : ∃ s t : State, (∀ ts, s.turns ≠ .reset :: ts) ∧ step s = .next t ∧
    t.nextTid ≠ s.nextTid :=
  ⟨unitOne.offerCommand [0x11000000], _, by simp [State.offerCommand], rfl, by decide⟩

theorem witness_RequestFramesOnTheWire : (List.replicate 123 (0xFFFF : Half)).length ≤ 123 := by simp

theorem witness_TransmittedBytesAreCounted :
    (∃ t : State, exec (.readU16 5) unitOne = .next t ∧ Instr.readU16 5 ≠ .resetCounters ∧ t.tx.length = 12) ∧
    (∃ t : State, requestOf (.expire 0) = none ∧ (Instr.expire 0).port ≠ .tx ∧ exec (.expire 0) reading = .next t) ∧
    ∃ s t : State, (∀ ts, s.turns ≠ .cmd :: ts) ∧ step s = .next t :=
  ⟨⟨_, rfl, by decide, by decide⟩, ⟨_, rfl, by decide, rfl⟩, ⟨{ busy with rxIn := [0x34], turns := [.rx] }, _, by simp, rfl⟩⟩

theorem witness_ComposeCommandsAnswer :
    ([] : List Half).length ≠ 1 ∧ [(1 : Half), 2].length ≠ 1 ∧ [(1 : Half)].length ≠ 2 ∧ [(1 : Half), 2, 3].length ≠ 2 ∧
    Instr.composeF32 [1] ∈ [Instr.composeU32 [1], .composeI32 [1], .composeF32 [1]] := by decide

theorem witness_DecomposeCommandsAnswer :
    Instr.decomposeI32 5 ∈ [Instr.decomposeU32 5, .decomposeI32 5, .decomposeF32 5] := by decide

theorem witness_CodecRoundTrips : View.f32 ∈ [View.u32, .i32, .f32] := by decide

theorem witness_Int32PatternsAreTwosComplement :
    (-(2 ^ 31) : Int) ≤ -(2 ^ 31) ∧ (-(2 ^ 31) : Int) < 2 ^ 31 ∧ patternOfInt32 (-(2 ^ 31)) = 0x80000000 ∧
    (2 ^ 31 - 1 : Int) < 2 ^ 31 ∧ patternOfInt32 (2 ^ 31 - 1) = 0x7FFFFFFF := by decide

/-- For SET_UNIT, RESET_COUNTERS, CSR_READ and LINK_LOST, a word whose reserved bits are 0 and one whose are not. -/
theorem witness_control_words :
    (∀ w ∈ [(0x31FF0000 : Word), 0x31FF0001], w.extractLsb' 24 8 = 0x31) ∧
    (∀ w ∈ [(0x32000000 : Word), 0x32800000], w.extractLsb' 24 8 = 0x32) ∧
    (∀ w ∈ [(0x33080000 : Word), 0x33088000], w.extractLsb' 24 8 = 0x33) ∧
    (∀ w ∈ [(0x35000000 : Word), 0x35000001], w.extractLsb' 24 8 = 0x35) ∧
    (∀ w ∈ [(0x31FF0000 : Word), 0x33080000], w.extractLsb' 0 16 = 0) ∧
    (∀ w ∈ [(0x31FF0001 : Word), 0x33088000], w.extractLsb' 0 16 ≠ 0) ∧
    (∀ w ∈ [(0x32000000 : Word), 0x35000000], w.extractLsb' 0 24 = 0) ∧
    ∀ w ∈ [(0x32800000 : Word), 0x35000001], w.extractLsb' 0 24 ≠ 0 := by simp

theorem witness_CsrReadAnswersTheRegister :
    busy.rxBuf.length ≤ 260 ∧ busy.pend.length ≤ 65536 ∧ (0x08 : Byte).toNat ≤ 0x08 ∧ 0x08 < (0x09 : Byte).toNat ∧
    0x08 < (0xFF : Byte).toNat := by decide

theorem witness_ExpireCompletesWithTimeout :
    Distinct busy ∧ readEntry ∈ busy.pend ∧ (∀ e ∈ busy.pend, e.tid ≠ 2) ∧ (0x34000001 : Word).extractLsb' 24 8 = 0x34 ∧
    (0x34000001 : Word).extractLsb' 16 8 = 0 ∧ (0x34010001 : Word).extractLsb' 16 8 ≠ 0 :=
  ⟨by unfold Distinct; decide, by decide, by decide, by decide, by decide, by decide⟩

theorem witness_HeaderBytesAreOnlyBuffered :
    { reading with rxBuf := [0, 0, 0, 0, 0, 0], rxIn := [7], turns := [.rx] }.dec = .awaitHeader ∧
    [(0 : Byte), 0, 0, 0, 0, 0].length + 1 < 8 := by decide

/-- The three accepted header classes at their bounds, and one header that fails each part of the check. -/
theorem witness_HeaderIsCheckedAtTheEighthByte :
    HeaderPasses 0 3 0x80 ∧ HeaderPasses 0 3 0xFF ∧ HeaderPasses 0 6 0x10 ∧ HeaderPasses 0 3 0x03 ∧ HeaderPasses 0 254 0x03 ∧
    ¬ HeaderPasses 1 3 0x80 ∧ ¬ HeaderPasses 0 4 0x83 ∧ ¬ HeaderPasses 0 5 0x10 ∧ ¬ HeaderPasses 0 2 0x03 ∧
    ¬ HeaderPasses 0 255 0x03 ∧ ¬ HeaderPasses 0 3 0x04 := by
  simp [HeaderPasses]

theorem witness_ByteCountIsCheckedAtTheNinthByte :
    be 0 5 ≠ 3 + (4 : Byte).toNat ∧ be 0 5 = 3 + (2 : Byte).toNat ∧ (2 : Byte).toNat ≠ 0 ∧
    { reading with rxBuf := [0, 0, 0, 0, 0, 5, 1, 3], dec := .awaitBody, rxIn := [2], turns := [.rx] }.dec = .awaitBody := by decide

/-- The 9th byte of a write response, and the 10th of a read response. -/
theorem witness_BodyBytesAreOnlyBuffered :
    { writing with rxBuf := [0, 0, 0, 0, 0, 6, 1, 0x10], dec := .awaitBody, rxIn := [0x34], turns := [.rx] }.dec = .awaitBody ∧
    ¬ ((0x10 : Byte) = 0x03 ∧ ([0, 0, 0, 0, 0, 6, 1, 0x10, 0x34] : List Byte).length = 9) ∧
    ([0, 0, 0, 0, 0, 6, 1, 0x10, 0x34] : List Byte).length ≠ 6 + be 0 6 ∧
    ¬ ((0x03 : Byte) = 0x03 ∧ ([0, 0, 0, 0, 0, 5, 1, 3, 2, 0x12] : List Byte).length = 9) ∧
    ([0, 0, 0, 0, 0, 5, 1, 3, 2, 0x12] : List Byte).length ≠ 6 + be 0 5 := by decide

theorem witness_ResponsesMatchByTransactionId :
    responseTid (.rspReadHolding 0 1 []) = some 0 ∧ (∀ e ∈ unitOne.pend, e.tid ≠ 0) ∧ readEntry ∈ busy.pend ∧ Distinct busy :=
  ⟨rfl, by decide, by decide, by unfold Distinct; decide⟩

/-- A witness for each of the four clauses. -/
theorem witness_ReadResponseCompletesItsEntry :
    Distinct reading ∧ readEntry ∈ reading.pend ∧ Distinct writing ∧ writeEntry ∈ writing.pend ∧ (0x02 : Byte) ≠ readEntry.unit ∧
    (0x01 = writeEntry.unit ∧ writeEntry.fc ≠ .readHolding) ∧
    (0x01 = readEntry.unit ∧ readEntry.fc = .readHolding ∧ [(0x12 : Byte)].length ≠ 2 * readEntry.count.toNat) ∧
    (readEntry.sound = true ∧ [(0x1234 : Half)].length = readEntry.count.toNat ∧
      [(0x12 : Byte), 0x34] = [(0x1234 : Half)].flatMap (fun w => [hi w, lo w])) :=
  ⟨by unfold Distinct; decide, by decide, by unfold Distinct; decide, by decide, by decide, by decide, by decide, by decide⟩

/-- A witness for each of the four clauses. -/
theorem witness_WriteResponseCompletesItsEntry :
    Distinct writing ∧ writeEntry ∈ writing.pend ∧ (0x02 : Byte) ≠ writeEntry.unit ∧
    (0x01 = readEntry.unit ∧ readEntry.fc ≠ .writeMultiple) ∧
    (0x01 = writeEntry.unit ∧ writeEntry.fc = .writeMultiple ∧ (2 : Half) ≠ writeEntry.count ∧ (1 : Half) = writeEntry.count) :=
  ⟨by unfold Distinct; decide, by decide, by decide, by decide, by decide⟩

/-- A witness for each of the three clauses. -/
theorem witness_ExceptionResponseCompletesItsEntry :
    Distinct reading ∧ readEntry ∈ reading.pend ∧ (0x02 : Byte) ≠ readEntry.unit ∧ 0x01 = readEntry.unit ∧
    (0x10 : BitVec 7).toNat ≠ fcNumber readEntry.fc ∧ (0x03 : BitVec 7).toNat = fcNumber readEntry.fc ∧
    (0x10 : BitVec 7).toNat = fcNumber writeEntry.fc :=
  ⟨by unfold Distinct; decide, by decide, by decide, by decide, by decide, by decide, by decide⟩

theorem witness_FrameBytesDecodeAsTheWholeFrame :
    (Instr.rspException 0 1 3 2).wf = true ∧
    encode (.rspException 0 1 3 2) = .rx [0x00, 0x00, 0x00, 0x00, 0x00, 0x03, 0x01, 0x83, 0x02] ∧
    reading.dec = .awaitHeader ∧ reading.rxBuf = [] := by decide

theorem witness_TimeoutAgainstResponse :
    Distinct busy ∧ readEntry ∈ busy.pend ∧ responseTid (.rspException 0 1 3 2) = some readEntry.tid :=
  ⟨by unfold Distinct; decide, by decide, rfl⟩

theorem witness_ExceptionCodesMapInOrder :
    (1 ≤ (0x01 : Byte).toNat ∧ (0x0B : Byte).toNat ≤ 0x0B) ∧ 0x0C ≤ (0x0C : Byte).toNat ∧ 0x0C ≤ (0xFF : Byte).toNat := by decide

theorem witness_RecordsPackAsWritten :
    ({ status := .ok, words := [1, 2] } : Result).words.length ≤ 2 ∧ (List.replicate 125 (0 : Half)).length ≤ 125 := by simp

end Sys2Proof.Tests
end

section
/-! SUPPORT. The state family (spec/10_state.md): what commands, completed frames and received bytes do to the elements of S, and
the statements settled from that. -/

/-! ## Encode commands: the statements' `Request` is the model's `admitArgs` -/

namespace Sys2Proof.Machine

open Sys2Proof.Claims

/-- R152, in arithmetic. -/
theorem decompose32_eq_twoWords (v : Word) : decompose32 v = twoWords v := by
  rw [decompose32_eq]
  simp only [twoWords, hiHalf, loHalf, List.cons.injEq, and_true]
  constructor <;> apply BitVec.eq_of_toNat_eq <;> simp [Nat.shiftRight_eq_div_pow]

/-- What the statements call an encode command's request is what the model gives to `Admit`. -/
theorem requestOf_eq_some_iff {i : Instr} {fc : FunCode} {addr : Half} {n : Nat} {view : View} {values : List Half} :
    requestOf i = some ⟨fc, addr, n, view, values⟩ ↔ admitArgs i = some (fc, addr, n, view, values) := by
  cases i <;> simp [requestOf, admitArgs, decompose16, decompose32_eq_twoWords]

/-- An admitted count fits the entry's 16-bit field (R24, R100). -/
theorem countAllowed_fits {fc : FunCode} {n : Nat} (h : countAllowed fc n = true) : (BitVec.ofNat 16 n).toNat = n := by
  have small : n ≤ 125 := by
    cases fc with
    | readHolding => exact ((readCountOk_iff n).mp h).2
    | writeMultiple => exact ((writeCountOk_iff n).mp h).2.trans (by decide)
  rw [BitVec.toNat_ofNat]
  omega

/-- The entry of an admitted request is sound (R24, R100, R151). -/
theorem entryOf_sound {i : Instr} {r : Request} (s : State) (hr : requestOf i = some r) (hc : countAllowed r.fc r.n = true) :
    (entryOf s r).sound = true := by
  obtain ⟨hview, hvals, -, -⟩ := admitArgs_sound (requestOf_eq_some_iff.mp hr)
  simp [Entry.sound, entryOf, countAllowed_fits hc, hc, hview, hvals]

end Sys2Proof.Machine
end

section
/-! ## What a command and a completed frame can do to the elements of S -/

namespace Sys2Proof.Machine

open Sys2Proof.Claims

theorem removeTid_of_absent {tid : Half} {pend : List Entry} (h : findTid tid pend = none) : removeTid tid pend = pend :=
  List.eraseP_of_forall_not fun e he => by simpa using findTid_eq_none.mp h e he

/-- Only an entry of the transaction ID is removed (log 12). -/
theorem tid_of_removed {tid : Half} {pend : List Entry} {e : Entry} (he : e ∈ pend) (hn : e ∉ removeTid tid pend) :
    e.tid = tid := by
  by_contra hne
  exact hn ((List.mem_eraseP_of_neg (by simpa using hne)).mpr he)

/-- The elements that an admission writes, whether it evicts or not (R100 to R102). -/
theorem State.admitted_writes (s : State) (r : Request) :
    ∃ counted added, s.admitted r.fc r.addr r.n r.view r.values =
      { s with
        nextTid := s.nextTid + 1
        pend := removeTid s.nextTid s.pend ++ [entryOf s r]
        txBytes := counted
        out := s.out ++ added } := by
  cases hf : findTid s.nextTid s.pend with
  | none =>
    rw [State.admitted_fresh _ _ _ _ _ _ hf, removeTid_of_absent hf]
    exact ⟨_, _, rfl⟩
  | some e =>
    rw [State.admitted_evicting _ _ _ _ _ _ e hf]
    exact ⟨_, _, rfl⟩

/-- Everything that a command can do, by the elements of S it writes: `exec_cases` for the command port, with the admission
spelt out. -/
inductive CommandCase (i : Instr) (s t : State) : Prop
  /-- One result and nothing else. -/
  | answered (r : Result) (ht : t = s.put (.res r))
  /-- An admitted encode command (R100), with room for its entry. -/
  | admitted (r : Request) (counted : Word) (added : List Output) (hr : requestOf i = some r)
      (hc : countAllowed r.fc r.n = true) (room : ¬ (findTid s.nextTid s.pend = none ∧ s.pend.length = s.cfg.maxPending))
      (ht : t = { s with
        nextTid := s.nextTid + 1
        pend := removeTid s.nextTid s.pend ++ [entryOf s r]
        txBytes := counted
        out := s.out ++ added })
  /-- SET_UNIT (R180). -/
  | unitSet (u : Byte) (hi : i = .setUnit u) (ht : t = { s with unit := { valid := true, id := u } }.put (.res { status := .ok }))
  /-- RESET_COUNTERS (R181). -/
  | countersReset (hi : i = .resetCounters) (ht : t = { s with txBytes := 0, rxBytes := 0 }.put (.res { status := .ok }))
  /-- EXPIRE of a pending transaction ID (R183). -/
  | expired (tid : Half) (added : List Output) (hi : i = .expire tid)
      (ht : t = { s with pend := removeTid tid s.pend, out := s.out ++ added })
  /-- LINK_LOST (R184). -/
  | lost (added : List Output) (hi : i = .linkLost)
      (ht : t = { s with pend := [], rxBuf := [], dec := .awaitHeader, out := s.out ++ added })

theorem command_cases {i : Instr} {s t : State} (hp : i.port = .cmd) (h : exec i s = .next t) : CommandCase i s t := by
  rcases exec_cases h with ⟨r, -, -, ht⟩ | ⟨fc, a, n, v, vs, ha, hc, -, room, ht⟩ | ⟨u, hi, ht⟩ | ⟨hi, ht⟩ |
    ⟨tid, e, hi, -, ht⟩ | ⟨hi, ht⟩ | ⟨f, htx, -⟩ | ⟨tid, hrx, -, -⟩ | ⟨tid, e, u, r, hrx, -, -⟩
  · exact .answered r ht
  · obtain ⟨counted, added, hw⟩ := s.admitted_writes ⟨fc, a, n, v, vs⟩
    exact .admitted _ counted added (requestOf_eq_some_iff.mpr ha) hc room (ht.trans hw)
  · exact .unitSet u hi ht
  · exact .countersReset hi ht
  · exact .expired tid [.cpl (failRecord e .timeout), .res { status := .ok, tid := tid }] hi (by simp [ht, State.put])
  · exact .lost (s.pend.map (fun e => .cpl (failRecord e .connectionLost)) ++ [.res { status := .ok }]) hi
      (by simp [ht, State.put])
  · rw [hp] at htx; cases htx
  · rw [hp] at hrx; cases hrx
  · rw [hp] at hrx; cases hrx

/-- A completed frame removes at most the entry of its transaction ID, ends the decoder's cycle, and leaves UNIT, NEXT_TID and
the parameters (R126, R127). -/
theorem response_writes {i : Instr} {s t : State} (hp : i.port = .rx) (h : exec i s = .next t) :
    ∃ tid, responseTid i = some tid ∧ t.pend = removeTid tid s.pend ∧ t.rxBuf = [] ∧ t.dec = .awaitHeader ∧
      t.unit = s.unit ∧ t.nextTid = s.nextTid ∧ t.cfg = s.cfg := by
  obtain ⟨tid, unit, r, hi, he⟩ :
      ∃ tid unit r, responseTid i = some tid ∧ exec i s = .next (s.dispatch tid unit r).endFrame := by
    cases i with
    | rspReadHolding tid unit data => exact ⟨tid, unit, .read data, rfl, rfl⟩
    | rspWriteMultiple tid unit ea ec => exact ⟨tid, unit, .write ea ec, rfl, rfl⟩
    | rspException tid unit fc7 x => exact ⟨tid, unit, .exception fc7 x, rfl, rfl⟩
    | _ => cases hp
  rw [he] at h
  obtain rfl := Host.Outcome.next.inj h
  refine ⟨tid, hi, ?_⟩
  cases hf : findTid tid s.pend with
  | none => rw [State.dispatch_none _ _ _ _ hf]; simp [removeTid_of_absent hf]
  | some e => rw [State.dispatch_some _ _ _ _ e hf]; simp

/-- UNIT over a command (R23). -/
theorem command_unit {i : Instr} {s t : State} (hp : i.port = .cmd) (h : exec i s = .next t) :
    t.unit = s.unit ∨ ∃ u, i = .setUnit u ∧ t.unit = { valid := true, id := u } := by
  cases command_cases hp h with
  | unitSet u hi ht => exact .inr ⟨u, hi, by rw [ht]; rfl⟩
  | answered | admitted | countersReset | expired | lost => subst t; exact .inl rfl

/-- NEXT_TID over a command (R22, R101). -/
theorem command_nextTid {i : Instr} {s t : State} (hp : i.port = .cmd) (h : exec i s = .next t) :
    t.nextTid = s.nextTid ∨ ∃ r, requestOf i = some r ∧ entryOf s r ∈ t.pend ∧ t.nextTid = s.nextTid + 1 := by
  cases command_cases hp h with
  | admitted r counted added hr _ _ ht => exact .inr ⟨r, hr, by simp [ht], by rw [ht]⟩
  | answered | unitSet | countersReset | expired | lost => subst t; exact .inl rfl

/-- The entries that a command takes out of the table (R24). -/
theorem command_removes {i : Instr} {s t : State} {e : Entry} (hp : i.port = .cmd) (h : exec i s = .next t) (he : e ∈ s.pend)
    (hn : e ∉ t.pend) : i = .expire e.tid ∨ i = .linkLost ∨ ∃ r, requestOf i = some r ∧ e.tid = s.nextTid := by
  cases command_cases hp h with
  | admitted r counted added hr _ _ ht =>
    subst ht
    exact .inr (.inr ⟨r, hr, tid_of_removed he fun hm => hn (List.mem_append_left _ hm)⟩)
  | expired tid added hi ht =>
    subst ht
    exact .inl (by rw [hi, tid_of_removed he hn])
  | lost added hi ht => exact .inr (.inl hi)
  | answered | unitSet | countersReset => subst t; exact absurd he hn

/-- The receive side over a command (R26, R27, R29 to R31). -/
theorem command_leaves_receiver {i : Instr} {s t : State} (hp : i.port = .cmd) (h : exec i s = .next t) :
    t.frameErrors = s.frameErrors ∧ t.unmatched = s.unmatched ∧ (i ≠ .resetCounters → t.rxBytes = s.rxBytes) ∧
    (i ≠ .linkLost → t.rxBuf = s.rxBuf ∧ t.dec = s.dec) := by
  cases command_cases hp h with
  | countersReset hi ht => subst ht; exact ⟨rfl, rfl, fun hne => absurd hi hne, fun _ => ⟨rfl, rfl⟩⟩
  | lost added hi ht => subst ht; exact ⟨rfl, rfl, fun _ => rfl, fun hne => absurd hi hne⟩
  | answered | admitted | unitSet | expired => subst t; exact ⟨rfl, rfl, fun _ => rfl, fun _ => ⟨rfl, rfl⟩⟩

end Sys2Proof.Machine
end

section
/-! ## The table's part of soundness (R24, R100) -/

namespace Sys2Proof.Machine

open Sys2Proof.Claims

/-- What `State.Sound` says of the pending table. -/
structure State.TableSound (s : State) : Prop where
  bounded : s.pend.length ≤ s.cfg.maxPending
  distinct : (s.pend.map Entry.tid).Nodup
  entries : ∀ e ∈ s.pend, e.sound = true

theorem State.sound_iff (s : State) : s.Sound ↔ s.TableSound ∧ s.rxSound = true :=
  ⟨fun h => ⟨⟨h.bounded, h.distinct, h.entries⟩, h.rx⟩, fun ⟨h, rx⟩ => ⟨h.bounded, h.distinct, h.entries, rx⟩⟩

/-- Taking entries out keeps the table sound. -/
theorem State.TableSound.of_sublist {s t : State} (hs : s.TableSound) (hc : t.cfg = s.cfg) (hp : t.pend.Sublist s.pend) :
    t.TableSound where
  bounded := by rw [hc]; exact hp.length_le.trans hs.bounded
  distinct := hs.distinct.sublist (hp.map Entry.tid)
  entries e he := hs.entries e (hp.subset he)

/-- With room for one more, an entry of a transaction ID that no longer has one keeps the table sound (R24, R102, R103). -/
theorem State.TableSound.of_insert {s t : State} {e : Entry} (hs : s.TableSound) (hc : t.cfg = s.cfg)
    (hp : t.pend = removeTid e.tid s.pend ++ [e]) (he : e.sound = true)
    (room : ¬ (findTid e.tid s.pend = none ∧ s.pend.length = s.cfg.maxPending)) : t.TableSound where
  bounded := by
    have bounded := hs.bounded
    rw [hp, hc, List.length_append, List.length_singleton]
    cases hf : findTid e.tid s.pend with
    | none =>
      have notFull : s.pend.length ≠ s.cfg.maxPending := fun hl => room ⟨hf, hl⟩
      rw [removeTid_of_absent hf]
      omega
    | some old => rw [removeTid_length hf]; exact bounded
  distinct := by
    rw [hp, List.map_append, List.nodup_append]
    refine ⟨removeTid_nodup hs.distinct, List.nodup_singleton _, ?_⟩
    intro a ha b hb
    obtain ⟨x, hx, rfl⟩ := List.mem_map.mp ha
    obtain rfl : b = e.tid := by simpa using hb
    exact ((mem_removeTid hs.distinct).mp hx).2
  entries x hx := by
    rw [hp, List.mem_append, List.mem_singleton] at hx
    rcases hx with hx | rfl
    · exact hs.entries x (removeTid_subset hx)
    · exact he

theorem command_keeps_tableSound {i : Instr} {s t : State} (hp : i.port = .cmd) (h : exec i s = .next t) (hs : s.TableSound) :
    t.TableSound := by
  cases command_cases hp h with
  | admitted r counted added hr hc room ht =>
    exact hs.of_insert (e := entryOf s r) (by rw [ht]) (by rw [ht]; rfl) (entryOf_sound s hr hc) room
  | expired tid added hi ht => exact hs.of_sublist (by rw [ht]) (by rw [ht]; exact removeTid_sublist tid s.pend)
  | lost added hi ht => exact hs.of_sublist (by rw [ht]) (by rw [ht]; exact List.nil_sublist _)
  | answered | unitSet | countersReset => subst t; exact ⟨hs.bounded, hs.distinct, hs.entries⟩

theorem response_keeps_tableSound {i : Instr} {s t : State} (hp : i.port = .rx) (h : exec i s = .next t) (hs : s.TableSound) :
    t.TableSound := by
  obtain ⟨tid, -, hpend, -, -, -, -, hcfg⟩ := response_writes hp h
  exact hs.of_sublist hcfg (by rw [hpend]; exact removeTid_sublist tid s.pend)

theorem step_keeps_tableSound {s t : State} (hs : s.TableSound) (h : step s = .next t) : t.TableSound := by
  cases step_cases h with
  | command ts i rest _ hd he => exact command_keeps_tableSound (decodeCmd_port hd) he ⟨hs.bounded, hs.distinct, hs.entries⟩
  | completed ts b rest i _ _ _ hd he =>
    exact response_keeps_tableSound (decodeResponse_port hd) he ⟨hs.bounded, hs.distinct, hs.entries⟩
  | reset ts _ ht => exact hs.of_sublist (by rw [ht]; rfl) (by rw [ht]; exact List.nil_sublist _)
  | idle | noCommand | illegal | noByte | kept | accepted | discarded =>
    subst t; exact ⟨hs.bounded, hs.distinct, hs.entries⟩

end Sys2Proof.Machine
end

section
/-! ## The receiver's part of soundness (R27, R123, R125, R134) -/

namespace Sys2Proof.Machine

theorem State.rxSound_congr {s t : State} (hb : t.rxBuf = s.rxBuf) (hd : t.dec = s.dec) : t.rxSound = s.rxSound := by
  unfold State.rxSound
  rw [hb, hd]

/-- The decoder between frames. -/
theorem State.rxSound_of_empty {s : State} (hb : s.rxBuf = []) (hd : s.dec = .awaitHeader) : s.rxSound = true := by
  simp [State.rxSound, hb, hd]

theorem State.rxSound_awaitHeader_iff {s : State} (hd : s.dec = .awaitHeader) : s.rxSound = true ↔ s.rxBuf.length ≤ 7 := by
  simp [State.rxSound, hd]

/-- The byte count of a read response, once it is there, agrees with the length field (R125). -/
def ByteCountChecked (f : Byte) (len : Nat) (body : List Byte) : Prop :=
  ∀ bc data, body = bc :: data → f = 0x03 → len = 3 + bc.toNat

theorem State.rxSound_awaitBody_iff {s : State} (hd : s.dec = .awaitBody) :
    s.rxSound = true ↔ ∃ t1 t0 p1 p0 l1 l0 u f body, s.rxBuf = t1 :: t0 :: p1 :: p0 :: l1 :: l0 :: u :: f :: body ∧
      headerOK (u16be p1 p0) (u16be l1 l0) f = true ∧ s.rxBuf.length < 6 + (u16be l1 l0).toNat ∧
      ByteCountChecked f (u16be l1 l0).toNat body := by
  unfold State.rxSound
  rw [hd]
  constructor
  · intro h
    dsimp only at h
    split at h
    · rename_i t1 t0 p1 p0 l1 l0 u f body hb
      simp only [Bool.and_eq_true, decide_eq_true_eq] at h
      obtain ⟨⟨ok, short⟩, checked⟩ := h
      refine ⟨t1, t0, p1, p0, l1, l0, u, f, body, hb, ok, short, ?_⟩
      rintro bc data rfl rfl
      simpa [FunCode.code] using checked
    · cases h
  · rintro ⟨t1, t0, p1, p0, l1, l0, u, f, body, hb, ok, short, checked⟩
    rw [hb] at short
    simp only [hb, ok, short, decide_true, Bool.and_self, Bool.true_and]
    cases body with
    | nil => rfl
    | cons bc data =>
      by_cases hf : f = 0x03
      · simp [checked bc data rfl hf]
      · exact Bool.or_eq_true_iff.mpr (.inl (bne_iff_ne.mpr hf))

/-- An accepted length field leaves room for at least the unit, the function code and one byte (R123). -/
theorem headerOK_three_le {pid len : Half} {f : Byte} (h : headerOK pid len f = true) : 3 ≤ len.toNat := by
  obtain ⟨-, ⟨-, rfl⟩ | ⟨-, rfl⟩ | ⟨-, hl, -⟩⟩ := (headerOK_iff pid len f).mp h
  · decide
  · decide
  · exact hl

/-- The check at the 9th byte is the one that R125 asks for. -/
theorem byteCountWrong_singleton_eq_false_iff {f : Byte} {len : Nat} {bc : Byte} :
    byteCountWrong f len [bc] = false ↔ (f = 0x03 → len = 3 + bc.toNat) := by
  by_cases hf : f = 0x03 <;> simp [byteCountWrong, FunCode.code, hf]

/-- One more body byte that R125's check lets pass keeps the byte count checked. -/
theorem ByteCountChecked.append {f b : Byte} {len : Nat} {body : List Byte} (h : ByteCountChecked f len body)
    (hw : byteCountWrong f len (body ++ [b]) = false) : ByteCountChecked f len (body ++ [b]) := by
  cases body with
  | nil =>
    intro bc data hb hf
    obtain ⟨rfl, -⟩ := List.cons.inj hb
    exact byteCountWrong_singleton_eq_false_iff.mp hw hf
  | cons bc0 data0 =>
    intro bc data hb hf
    obtain ⟨rfl, -⟩ := List.cons.inj hb
    exact h _ _ rfl hf

/-- Bytes that passed the checks of R123 and R125 and are as many as their length field says are a response frame. -/
theorem decodeResponse_of_complete {t1 t0 p1 p0 l1 l0 u f : Byte} {body : List Byte}
    (ok : headerOK (u16be p1 p0) (u16be l1 l0) f = true) (hl : body.length + 2 = (u16be l1 l0).toNat)
    (checked : ByteCountChecked f (u16be l1 l0).toNat body) :
    ∃ i, decodeResponse (t1 :: t0 :: p1 :: p0 :: l1 :: l0 :: u :: f :: body) = .ok i := by
  have classes := ((headerOK_iff _ _ _).mp ok).2
  simp only [decodeResponse, ok, if_true]
  rcases classes with ⟨hm, h3⟩ | ⟨rfl, h6⟩ | ⟨rfl, -, -⟩
  · have one : body.length = 1 := by rw [h3] at hl; simpa using hl
    obtain ⟨x, rfl⟩ := List.length_eq_one_iff.mp one
    exact ⟨_, by rw [if_pos hm]⟩
  · have four : body.length = 4 := by rw [h6] at hl; simpa using hl
    match body, four with
    | [a1, a0, c1, c0], _ => exact ⟨_, rfl⟩
  · rw [if_neg (by decide), if_neg (by decide)]
    cases body with
    | nil =>
      have three := headerOK_three_le ok
      simp only [List.length_nil] at hl
      omega
    | cons bc data =>
      have hbc := checked bc data rfl rfl
      have hdata : data.length = bc.toNat := by
        rw [List.length_cons] at hl
        omega
      exact ⟨_, if_pos ⟨hdata, hbc⟩⟩

@[simp] theorem State.withByte_rxBuf (s : State) (b : Byte) : (s.withByte b).rxBuf = s.rxBuf ++ [b] := rfl

/-- A receive step in AWAIT_HEADER ends the step and keeps the receiver sound. -/
theorem receiveHeader_keeps_rxSound {s : State} (b : Byte) (hd : s.dec = .awaitHeader) (hs : s.rxBuf.length ≤ 7) :
    ∃ t, (s.withByte b).receiveHeader = .done t ∧ t.rxSound = true := by
  have hlen : (s.withByte b).rxBuf.length ≤ 8 := by simpa using Nat.lt_succ_of_le hs
  rcases State.receiveHeader_cases (s.withByte b) with ⟨hw, h⟩ |
    ⟨t1, t0, p1, p0, l1, l0, u, f, body, hb, ⟨ok, h⟩ | ⟨-, h⟩⟩
  · exact ⟨_, h, (State.rxSound_awaitHeader_iff (s := s.withByte b) hd).mpr (by omega)⟩
  · refine ⟨_, h, (State.rxSound_awaitBody_iff rfl).mpr ⟨t1, t0, p1, p0, l1, l0, u, f, body, hb, ok, ?_, ?_⟩⟩
    · have three := headerOK_three_le ok
      show (s.withByte b).rxBuf.length < _
      omega
    · rintro bc data rfl
      rw [hb] at hlen
      simp only [List.length_cons] at hlen
      omega
  · exact ⟨_, h, State.rxSound_of_empty rfl rfl⟩

/-- A receive step in a sound AWAIT_BODY ends the step and keeps the receiver sound, or completes a frame. -/
theorem receiveBody_keeps_rxSound {s : State} (b : Byte) (hd : s.dec = .awaitBody) (hs : s.rxSound = true) :
    (∃ t, (s.withByte b).receiveBody = .done t ∧ t.rxSound = true) ∨ ∃ i t, (s.withByte b).receiveBody = .run i t := by
  obtain ⟨t1, t0, p1, p0, l1, l0, u, f, body, hb, ok, short, checked⟩ := (State.rxSound_awaitBody_iff hd).mp hs
  have hb' : (s.withByte b).rxBuf = t1 :: t0 :: p1 :: p0 :: l1 :: l0 :: u :: f :: (body ++ [b]) := by simp [hb]
  have hlen : (s.withByte b).rxBuf.length = s.rxBuf.length + 1 := by simp
  rcases State.receiveBody_cases (s.withByte b) with ⟨h8, -⟩ | ⟨t1', t0', p1', p0', l1', l0', u', f', body', hb2, hcase⟩
  · rw [hb'] at h8
    simp only [List.length_cons] at h8
    omega
  · rw [hb'] at hb2
    simp only [List.cons.injEq] at hb2
    obtain ⟨rfl, rfl, rfl, rfl, rfl, rfl, rfl, rfl, rfl⟩ := hb2
    rcases hcase with ⟨-, h⟩ | ⟨hw, ⟨hne, h⟩ | ⟨heq, ⟨i, -, h⟩ | ⟨err, herr, -⟩⟩⟩
    · exact .inl ⟨_, h, State.rxSound_of_empty rfl rfl⟩
    · exact .inl ⟨_, h, (State.rxSound_awaitBody_iff (s := s.withByte b) hd).mpr
        ⟨t1, t0, p1, p0, l1, l0, u, f, _, hb', ok, by omega, checked.append hw⟩⟩
    · exact .inr ⟨i, _, h⟩
    · rw [hb'] at herr heq
      obtain ⟨i, hi⟩ := decodeResponse_of_complete (t1 := t1) (t0 := t0) (u := u) ok (by simp at heq ⊢; omega)
        (checked.append hw)
      rw [hi] at herr
      cases herr

/-- From a sound receiver a receive step never stops: it ends with a sound receiver, or runs a completed frame. -/
theorem State.receive_of_rxSound {s : State} (b : Byte) (hs : s.rxSound = true) :
    (∃ t, s.receive b = .done t ∧ t.rxSound = true) ∨ ∃ i t, s.receive b = .run i t := by
  rw [State.receive_eq]
  cases hd : s.dec with
  | awaitHeader => exact .inl (receiveHeader_keeps_rxSound b hd ((State.rxSound_awaitHeader_iff hd).mp hs))
  | awaitBody => exact receiveBody_keeps_rxSound b hd hs
  | dispatched => simp [State.rxSound, hd] at hs

theorem receive_done_rxSound {s t : State} {b : Byte} (h : s.receive b = .done t) (hs : s.rxSound = true) :
    t.rxSound = true := by
  rcases State.receive_of_rxSound b hs with ⟨t', h', ht'⟩ | ⟨i, t', h'⟩
  · rw [h'] at h
    obtain rfl := Fetched.done.inj h
    exact ht'
  · rw [h'] at h
    cases h

theorem command_keeps_rxSound {i : Instr} {s t : State} (hp : i.port = .cmd) (h : exec i s = .next t) (hs : s.rxSound = true) :
    t.rxSound = true := by
  by_cases hi : i = .linkLost
  · subst hi
    obtain rfl := Host.Outcome.next.inj h
    exact State.rxSound_of_empty rfl rfl
  · obtain ⟨-, -, -, kept⟩ := command_leaves_receiver hp h
    obtain ⟨hb, hd⟩ := kept hi
    rw [State.rxSound_congr hb hd, hs]

theorem step_keeps_rxSound {s t : State} (hs : s.rxSound = true) (h : step s = .next t) : t.rxSound = true := by
  cases step_cases h with
  | command ts i rest _ hd he => exact command_keeps_rxSound (decodeCmd_port hd) he hs
  | kept ts b rest _ _ hr _ => exact receive_done_rxSound hr hs
  | accepted ts b rest _ _ _ hr _ => exact receive_done_rxSound hr hs
  | completed ts b rest i _ _ _ hd he =>
    obtain ⟨-, -, -, hb, hdec, -⟩ := response_writes (decodeResponse_port hd) he
    exact State.rxSound_of_empty hb hdec
  | discarded => subst t; exact State.rxSound_of_empty rfl rfl
  | reset => subst t; exact State.rxSound_of_empty rfl rfl
  | idle | noCommand | illegal | noByte => subst t; exact hs

/-- From a sound receiver nothing that a step takes from the ports makes it stop. -/
theorem fetch_of_rxSound {s : State} (hs : s.rxSound = true) : (∃ t, fetch s = .done t) ∨ ∃ i t, fetch s = .run i t := by
  match hts : s.turns with
  | [] => exact .inl ⟨_, fetch_nil s hts⟩
  | .reset :: ts => exact .inl ⟨_, fetch_reset s ts hts⟩
  | .cmd :: ts =>
    rw [fetch_cmd s ts hts, State.takeCommand]
    cases decodeCmd s.cmdIn with
    | incomplete => exact .inl ⟨_, rfl⟩
    | illegal why rest => exact .inl ⟨_, rfl⟩
    | instr i rest => exact .inr ⟨i, _, rfl⟩
  | .rx :: ts =>
    rw [fetch_rx s ts hts, State.takeByte]
    cases s.rxIn with
    | nil => exact .inl ⟨_, rfl⟩
    | cons b rest =>
      rcases State.receive_of_rxSound (s := { s with turns := ts, rxIn := rest }) b hs with ⟨t, h, -⟩ | h
      · exact .inl ⟨t, h⟩
      · exact .inr h

end Sys2Proof.Machine
end

section
/-! ## The packing of records (R80, R81) -/

namespace Sys2Proof.Machine

open Sys2Proof.Claims

/-- A concatenation, widened, is a shift and an or. -/
theorem setWidth_append_eq_shift_or {m n : Nat} (w : Nat) (x : BitVec m) (y : BitVec n) :
    (x ++ y).setWidth w = x.setWidth w <<< n ||| y.setWidth w := by
  apply BitVec.eq_of_getLsbD_eq
  intro i hi
  simp only [BitVec.getLsbD_setWidth, BitVec.getLsbD_append, BitVec.getLsbD_or, BitVec.getLsbD_shiftLeft]
  by_cases h : i < n
  · simp [h, hi]
  · have e : y.getLsbD i = false := BitVec.getLsbD_of_ge y i (by omega)
    have l : i - n < w := by omega
    simp [h, hi, e, l]

/-- Two halves of a word, in R81's shifts. -/
theorem word_of_halves (h l : Half) : (h ++ l : Word) = h.setWidth 32 <<< 16 ||| l.setWidth 32 :=
  (BitVec.setWidth_eq (h ++ l : Word)).symm.trans (setWidth_append_eq_shift_or 32 h l)

/-- Two bytes and a half, in R80's shifts. -/
theorem word_of_bytes_half (a b : Byte) (h : Half) :
    (a ++ b ++ h : Word) = a.setWidth 32 <<< 24 ||| b.setWidth 32 <<< 16 ||| h.setWidth 32 := by
  rw [word_of_halves (a ++ b) h, setWidth_append_eq_shift_or, BitVec.shiftLeft_or_distrib, ← BitVec.shiftLeft_add]

/-- Four bytes, in R81's shifts. -/
theorem word_of_bytes (a b c d : Byte) :
    (a ++ b ++ c ++ d : Word) =
      a.setWidth 32 <<< 24 ||| b.setWidth 32 <<< 16 ||| c.setWidth 32 <<< 8 ||| d.setWidth 32 := by
  have pairs : (a ++ b ++ c ++ d : Word) = (a ++ b ++ (c ++ d : Half) : Word) :=
    (BitVec.append_assoc (x₁ := (a ++ b : Half)) (x₂ := c) (x₃ := d)).trans rfl
  rw [pairs, word_of_bytes_half, setWidth_append_eq_shift_or, BitVec.or_assoc _ _ (d.setWidth 32)]

theorem halfWord_eq_setWidth (v : Half) : halfWord v = v.setWidth 32 :=
  BitVec.eq_of_toNat_eq (by rw [halfWord_toNat, BitVec.toNat_setWidth]; omega)

/-- A count that fits its byte keeps its value in a word. -/
theorem setWidth_ofNat_byte {n : Nat} (h : n < 256) : (BitVec.ofNat 8 n).setWidth 32 = BitVec.ofNat 32 n :=
  BitVec.eq_of_toNat_eq (by simp; omega)

theorem setWidth_funCode (fc : FunCode) : fc.code.setWidth 32 = BitVec.ofNat 32 (fcNumber fc) := by cases fc <;> rfl

theorem setWidth_viewCode (view : View) : view.code.setWidth 32 = BitVec.ofNat 32 (viewNumber view) := by cases view <;> rfl

end Sys2Proof.Machine
end

section
/-! ## The statements of the state family -/

namespace Sys2Proof.Machine

open Sys2Proof.Claims

/-- Settles O15: the table's part and the receiver's part of soundness are each kept by every step. -/
theorem soundStateStaysSound : Obligations.SoundStateStaysSound := by
  intro s t hs h
  obtain ⟨table, rx⟩ := s.sound_iff.mp hs
  exact t.sound_iff.mpr ⟨step_keeps_tableSound table h, step_keeps_rxSound rx h⟩

/-- Settles O16: a sound receiver raises no fault, and every instruction answers a next state. -/
theorem soundStateNeverStops : Obligations.SoundStateNeverStops := by
  intro s hs
  unfold State.Steps step
  rcases fetch_of_rxSound hs.rx with ⟨t, h⟩ | ⟨i, t, h⟩ <;> rw [h]
  · exact ⟨t, rfl⟩
  · exact exec_answers i t

/-- Settles O18, by the cases of a step. -/
theorem outputsOnlyGrow : Obligations.OutputsOnlyGrow := by
  intro s t h
  cases step_cases h with
  | command ts i rest _ _ he =>
    obtain ⟨hcfg, -, -, -, grown⟩ := exec_frame he
    exact ⟨grown, hcfg⟩
  | completed ts b rest i _ _ _ _ he =>
    obtain ⟨hcfg, -, -, -, grown⟩ := exec_frame he
    exact ⟨grown, hcfg⟩
  | illegal => subst t; exact ⟨⟨_, rfl⟩, rfl⟩
  | idle | noCommand | noByte | kept | accepted | discarded | reset =>
    subst t; exact ⟨⟨[], (List.append_nil s.out).symm⟩, rfl⟩

/-- Settles O22: besides a reset, only commands and completed frames take entries out. -/
theorem entriesLeaveOnlyAsListed : Obligations.EntriesLeaveOnlyAsListed := by
  intro s t h e he hn
  cases step_cases h with
  | command ts i rest hts hd hx =>
    have removes := command_removes (decodeCmd_port hd) hx he hn
    exact .inr (.inr ⟨ts, i, rest, hts, hd, removes⟩)
  | completed ts b rest i hts hb _ hd hx =>
    obtain ⟨tid, hi, hpend, -⟩ := response_writes (decodeResponse_port hd) hx
    rw [hpend] at hn
    exact .inr (.inl ⟨ts, b, rest, i, hts, hb, hd, by rw [hi, tid_of_removed he hn]⟩)
  | reset ts hts => exact .inl ⟨ts, hts⟩
  | idle | noCommand | illegal | noByte | kept | accepted | discarded => subst t; exact absurd he hn

/-- Settles O24: over a command UNIT is kept or SET_UNIT's, and received bytes and frames leave it. -/
theorem onlySetUnitWritesTheUnit : Obligations.OnlySetUnitWritesTheUnit := by
  intro s t noReset h hne
  cases step_cases h with
  | command ts i rest hts hd hx =>
    rcases command_unit (decodeCmd_port hd) hx with same | ⟨u, rfl, hu⟩
    · exact absurd same hne
    · exact ⟨ts, u, rest, hts, hd, hu⟩
  | completed ts b rest i _ _ _ hd hx =>
    obtain ⟨-, -, -, -, -, same, -⟩ := response_writes (decodeResponse_port hd) hx
    exact absurd same hne
  | reset ts hts => exact absurd hts (noReset ts)
  | idle | noCommand | illegal | noByte | kept | accepted | discarded => subst t; exact absurd rfl hne

/-- Settles O27, by the cases of a command. -/
theorem commandsLeaveTheReceiver : Obligations.CommandsLeaveTheReceiver := fun _ _ _ hp h => command_leaves_receiver hp h

/-- Settles O35: over a command NEXT_TID is kept or advanced by an admission, and received bytes and frames leave it. -/
theorem onlyAdmissionsAdvanceTheTransactionId : Obligations.OnlyAdmissionsAdvanceTheTransactionId := by
  intro s t noReset h hne
  cases step_cases h with
  | command ts i rest hts hd hx =>
    rcases command_nextTid (decodeCmd_port hd) hx with same | ⟨r, hr, inserted, next⟩
    · exact absurd same hne
    · exact ⟨ts, i, r, rest, hts, hd, hr, inserted, next⟩
  | completed ts b rest i _ _ _ hd hx =>
    obtain ⟨-, -, -, -, -, -, same, -⟩ := response_writes (decodeResponse_port hd) hx
    exact absurd same hne
  | reset ts hts => exact absurd hts (noReset ts)
  | idle | noCommand | illegal | noByte | kept | accepted | discarded => subst t; exact absurd rfl hne

/-- Settles O59: each packed word is a concatenation of its fields, and a concatenation is the spec's shifts. -/
theorem recordsPackAsWritten : Obligations.RecordsPackAsWritten := by
  have words : ∀ ws : List Half, ws.map halfWord = ws.map (fun w => w.setWidth 32) := fun ws =>
    List.map_congr_left fun w _ => halfWord_eq_setWidth w
  constructor
  · intro r hlen
    rw [Result.pack, words, word_of_bytes_half, setWidth_ofNat_byte (by omega)]
    rfl
  · intro k hlen
    rw [Completion.pack, words, word_of_bytes_half, word_of_bytes, word_of_halves, word_of_halves, setWidth_funCode,
      setWidth_viewCode, setWidth_ofNat_byte (by omega)]
    rfl

/-- Settles O9: the turn is the command port's, and its words are whole. -/
theorem stepRunsTheDecodedCommand : Obligations.StepRunsTheDecodedCommand := by
  intro s ts i rest hts hd
  rw [step, fetch_cmd s ts hts, State.takeCommand, hd]
  rfl

/-- Settles O13: each element of `State.resetWith` is the value that R36 lists. -/
theorem resetValuesOfEveryElement : Obligations.ResetValuesOfEveryElement := fun _ =>
  ⟨rfl, rfl, rfl, rfl, rfl, rfl, rfl, rfl, rfl⟩

end Sys2Proof.Machine
end

section
/-! SUPPORT. The encoding family (spec/30_encoding.md): the two directions between an instruction and its words or bytes, what an
illegal command is, what RES shows of an instruction, and the statements settled from that. -/

/-! ## Commands: a command's words and the instruction they are read as (R70, R71, R78) -/

namespace Sys2Proof

/-- The operand words `ops` are as many as the format says (R71), and with SUB and ARG they are the operands of `i` (R78). -/
structure Reads (o : Opcode) (sub : Byte) (arg : Half) (ops : List Word) (i : Instr) : Prop where
  count : operandCount o sub ops = some ops.length
  decoded : decodeOperands o sub arg ops = some i

/-- The number of operand words is known from the command's own words, whatever follows them (R71). -/
theorem operandCount_append {o : Opcode} {sub : Byte} {ops : List Word} {n : Nat} (h : operandCount o sub ops = some n)
    (rest : List Word) : operandCount o sub (ops ++ rest) = some n := by
  cases ops with
  | cons w1 ops => exact h
  | nil =>
    revert h
    unfold operandCount
    cases o.format with
    | ACD => intro h; cases h
    | _ => exact id

/-- Format ACD reads its count from its own first operand word (R71). -/
theorem operandCount_take {o : Opcode} {sub : Byte} {ops : List Word} {n : Nat} (h : operandCount o sub ops = some n) :
    operandCount o sub (ops.take n) = some n := by
  cases ops with
  | nil => simpa using h
  | cons w1 ops =>
    cases n with
    | succ n => exact h
    | zero =>
      revert h
      unfold operandCount
      cases o.format with
      | ACD => intro h; simp at h
      | _ => exact id

/-- A command is read with exactly its own words, whatever follows them (R71). -/
theorem decodeCmd_of_reads {o : Opcode} {sub : Byte} {arg : Half} {ops : List Word} {i : Instr} (h : Reads o sub arg ops i)
    (rest : List Word) : decodeCmd (commandWord o sub arg :: (ops ++ rest)) = .instr i rest := by
  simp [decodeCmd, operandCount_append h.count, h.decoded]

/-- Whatever words are read as a command begin with a command word and its operand words. -/
theorem reads_of_decodeCmd {ws : List Word} {i : Instr} {rest : List Word} (h : decodeCmd ws = .instr i rest) :
    ∃ o sub arg ops, ws = commandWord o sub arg :: (ops ++ rest) ∧ Reads o sub arg ops i := by
  cases ws with
  | nil => cases h
  | cons cw0 ops =>
    rcases decodeCmd_cons cw0 ops with
      ⟨-, hd⟩ | ⟨o, ho, ⟨-, hd⟩ | ⟨n, hn, ⟨-, hd⟩ | ⟨-, -, hd⟩ | ⟨hl, j, hj, hd⟩⟩⟩ <;> rw [hd] at h <;> cases h
    refine ⟨o, subField cw0, argField cw0, ops.take n, ?_, ?_, hj⟩
    · rw [commandWord_fields o cw0 (op_of_opcodeOf ho), List.take_append_drop]
    · rw [operandCount_take hn, List.length_take_of_le hl]

/-- Formats A, U, C, T and N have no operand words. -/
theorem eq_nil_of_count_zero {ops : List Word} (h : some 0 = some ops.length) : ops = [] :=
  List.length_eq_zero_iff.mp (Option.some.inj h).symm

/-- A SUB that is the number of words is the one that the encoder writes (format NW). -/
theorem encodeNW_of_count {o : Opcode} {sub : Byte} {words : List Half} (h : sub.toNat = (words.map halfWord).length) :
    fitsByte words.length = true ∧ encodeNW o words = commandWord o sub 0 :: words.map halfWord := by
  rw [List.length_map] at h
  rw [fitsByte_iff, encodeNW, ← h]
  exact ⟨sub.isLt, by simp⟩

/-- A count word that is the number of values is the one that the encoder writes (format ACD). -/
theorem ofNat_length_of_count {c : Half} {values : List Half} (h : 1 + c.toNat = (halfWord c :: values.map halfWord).length) :
    fitsHalf values.length = true ∧ BitVec.ofNat 16 values.length = c := by
  have e : c.toNat = values.length := by simp at h; omega
  rw [fitsHalf_iff, ← e]
  exact ⟨c.isLt, by simp⟩

/-- What is read as a command is its encoding. -/
theorem encode_of_reads {o : Opcode} {sub : Byte} {arg : Half} {ops : List Word} {i : Instr} (h : Reads o sub arg ops i) :
    i.wf = true ∧ encode i = .cmd (commandWord o sub arg :: ops) := by
  obtain ⟨count, decoded⟩ := h
  cases o with
  | readU16 | readU32 | readI32 | readF32 | expire =>
    obtain rfl := eq_nil_of_count_zero count
    obtain ⟨rfl, rfl⟩ := formA_eq_some.mp decoded
    exact ⟨rfl, rfl⟩
  | setUnit | csrRead =>
    obtain rfl := eq_nil_of_count_zero count
    obtain ⟨rfl, rfl⟩ := formU_eq_some.mp decoded
    exact ⟨rfl, rfl⟩
  | resetCounters | linkLost =>
    obtain rfl := eq_nil_of_count_zero count
    obtain ⟨⟨rfl, rfl⟩, rfl⟩ := formN_eq_some.mp decoded
    exact ⟨rfl, rfl⟩
  | encRead | writeU16 =>
    obtain ⟨rfl, v, rfl, rfl⟩ := formAV16_eq_some.mp decoded
    exact ⟨rfl, rfl⟩
  | writeU32 | writeI32 | writeF32 =>
    obtain ⟨rfl, v, rfl, rfl⟩ := formAV32_eq_some.mp decoded
    exact ⟨rfl, rfl⟩
  | decomposeU16 =>
    obtain ⟨⟨rfl, rfl⟩, v, rfl, rfl⟩ := formV16_eq_some.mp decoded
    exact ⟨rfl, rfl⟩
  | decomposeU32 | decomposeI32 | decomposeF32 =>
    obtain ⟨⟨rfl, rfl⟩, v, rfl, rfl⟩ := formV32_eq_some.mp decoded
    exact ⟨rfl, rfl⟩
  | composeU16 | composeU32 | composeI32 | composeF32 =>
    obtain ⟨rfl, words, rfl, rfl⟩ := formNW_eq_some.mp decoded
    obtain ⟨fits, e⟩ := encodeNW_of_count (Option.some.inj count)
    exact ⟨fits, congrArg Encoded.cmd e⟩
  | encWrite =>
    obtain ⟨rfl, c, values, rfl, rfl⟩ := formACD_eq_some.mp decoded
    have count : 1 + (loHalf (halfWord c)).toNat = _ := Option.some.inj count
    rw [loHalf_halfWord] at count
    obtain ⟨fits, e⟩ := ofNat_length_of_count count
    exact ⟨fits, by rw [encode, e]⟩

/-- The encoding of a command is read as that command. -/
theorem reads_of_encode {i : Instr} {ws : List Word} (hw : i.wf = true) (h : encode i = .cmd ws) :
    ∃ o sub arg ops, ws = commandWord o sub arg :: ops ∧ Reads o sub arg ops i := by
  cases i <;> cases h
  case readU16 | readU32 | readI32 | readF32 | expire => exact ⟨_, _, _, _, rfl, rfl, formA_eq_some.mpr ⟨rfl, rfl⟩⟩
  case setUnit | csrRead => exact ⟨_, _, _, _, rfl, rfl, formU_eq_some.mpr ⟨rfl, rfl⟩⟩
  case resetCounters | linkLost => exact ⟨_, _, _, _, rfl, rfl, formN_eq_some.mpr ⟨⟨rfl, rfl⟩, rfl⟩⟩
  case encRead | writeU16 => exact ⟨_, _, _, _, rfl, rfl, formAV16_eq_some.mpr ⟨rfl, _, rfl, rfl⟩⟩
  case writeU32 | writeI32 | writeF32 => exact ⟨_, _, _, _, rfl, rfl, formAV32_eq_some.mpr ⟨rfl, _, rfl, rfl⟩⟩
  case decomposeU16 => exact ⟨_, _, _, _, rfl, rfl, formV16_eq_some.mpr ⟨⟨rfl, rfl⟩, _, rfl, rfl⟩⟩
  case decomposeU32 | decomposeI32 | decomposeF32 =>
    exact ⟨_, _, _, _, rfl, rfl, formV32_eq_some.mpr ⟨⟨rfl, rfl⟩, _, rfl, rfl⟩⟩
  case composeU16 words | composeU32 words | composeI32 words | composeF32 words =>
    refine ⟨_, _, _, _, rfl, ?_, formNW_eq_some.mpr ⟨rfl, words, rfl, rfl⟩⟩
    have fits : words.length < 256 := (fitsByte_iff _).mp hw
    have count : (BitVec.ofNat 8 words.length).toNat = (words.map halfWord).length := by simp; omega
    exact congrArg some count
  case encWrite addr values =>
    refine ⟨_, _, _, _, rfl, ?_, formACD_eq_some.mpr ⟨rfl, _, values, rfl, rfl⟩⟩
    have fits : values.length < 65536 := (fitsHalf_iff _).mp hw
    have count : 1 + (loHalf (halfWord (BitVec.ofNat 16 values.length))).toNat =
        (halfWord (BitVec.ofNat 16 values.length) :: values.map halfWord).length := by simp; omega
    exact congrArg some count

/-- The encoding of a well-formed command, whatever words follow it (R71). -/
theorem decodeCmd_encode_append {i : Instr} {ws : List Word} (hw : i.wf = true) (h : encode i = .cmd ws) (rest : List Word) :
    decodeCmd (ws ++ rest) = .instr i rest := by
  obtain ⟨o, sub, arg, ops, rfl, reads⟩ := reads_of_encode hw h
  exact decodeCmd_of_reads reads rest

/-- A command is read out of its own words with none left over. -/
theorem decode_encode_of_command {i : Instr} {ws : List Word} (hw : i.wf = true) (h : encode i = .cmd ws) :
    decode (encode i) = .ok i := by
  have read : decodeCmd ws = .instr i [] := by simpa using decodeCmd_encode_append hw h []
  rw [h, decode, read]

end Sys2Proof
end

section
/-! ## Frames: the decoders on the encoder's frames, and back (R73 to R77, R104) -/

namespace Sys2Proof

/-- A frame byte by byte, with the value of its length field (R104). -/
theorem frame_of_length {pdu : List Byte} {n : Nat} (h : 1 + pdu.length = n) (tid : Half) (unit : Byte) :
    frame tid unit pdu =
      tid.extractLsb' 8 8 :: tid.extractLsb' 0 8 :: 0 :: 0 ::
        (BitVec.ofNat 16 n).extractLsb' 8 8 :: (BitVec.ofNat 16 n).extractLsb' 0 8 :: unit :: pdu := by
  rw [frame_eq, h]

theorem decodeRequest_readFrame (tid : Half) (unit : Byte) (addr count : Half) (h : readCountOk count.toNat = true) :
    decodeRequest (readFrame tid unit addr count) = .ok (.reqReadHolding tid unit addr count) := by
  have len : (u16be 0#8 6#8).toNat = 6 := by decide
  simp [readFrame, frame_eq, decodeRequest, be16, len, h]

theorem decodeRequest_writeFrame (tid : Half) (unit : Byte) (addr : Half) (values : List Half)
    (h : writeCountOk values.length = true) :
    decodeRequest (writeFrame tid unit addr values) = .ok (.reqWriteMultiple tid unit addr values) := by
  obtain ⟨-, hle⟩ := (writeCountOk_iff _).mp h
  have count : (BitVec.ofNat 16 values.length).toNat = values.length := by rw [BitVec.toNat_ofNat]; omega
  have bytes : (BitVec.ofNat 8 (2 * values.length)).toNat = 2 * values.length := by rw [BitVec.toNat_ofNat]; omega
  have len : (BitVec.ofNat 16 (7 + 2 * values.length)).toNat = 7 + 2 * values.length := by rw [BitVec.toNat_ofNat]; omega
  rw [writeFrame, frame_of_length (n := 7 + 2 * values.length) (by simp; omega)]
  simp only [decodeRequest, be16, List.cons_append, List.nil_append, u16be_be16, count, bytes, len, flatMap_be16_length,
    wordsOf_flatMap_be16, List.length_cons]
  rw [if_pos ⟨u16be_zero, by omega⟩, if_neg (by decide)]
  simp only [if_true, and_self, h]

theorem decodeResponse_readResponseFrame (tid : Half) (unit : Byte) (data : List Byte) (h : byteCountOk data.length = true) :
    decodeResponse (readResponseFrame tid unit data) = .ok (.rspReadHolding tid unit data) := by
  have hle : 3 + data.length ≤ 254 := (byteCountOk_iff _).mp h
  have bytes : (BitVec.ofNat 8 data.length).toNat = data.length := by rw [BitVec.toNat_ofNat]; omega
  have len : (BitVec.ofNat 16 (3 + data.length)).toNat = 3 + data.length := by rw [BitVec.toNat_ofNat]; omega
  have header : headerOK (u16be 0 0) (BitVec.ofNat 16 (3 + data.length)) 0x03 = true :=
    (headerOK_iff _ _ _).mpr ⟨u16be_zero, .inr (.inr ⟨rfl, by omega, len.trans_le hle⟩)⟩
  rw [readResponseFrame, frame_of_length (n := 3 + data.length) (by simp; omega)]
  have notException : ¬ FunCode.readHolding.code.msb = true := by decide
  have notWrite : FunCode.readHolding.code ≠ FunCode.writeMultiple.code := by decide
  simp only [decodeResponse, u16be_be16]
  rw [if_neg notException, if_neg notWrite, bytes, len]
  exact (if_pos header).trans (if_pos ⟨rfl, rfl⟩)

theorem decodeResponse_writeResponseFrame (tid : Half) (unit : Byte) (echoAddr echoCount : Half) :
    decodeResponse (writeResponseFrame tid unit echoAddr echoCount) = .ok (.rspWriteMultiple tid unit echoAddr echoCount) := by
  have header : headerOK (u16be 0 0) 6 0x10 = true := by decide
  rw [writeResponseFrame, frame_of_length (n := 6) rfl]
  simp only [decodeResponse, be16, List.cons_append, List.nil_append, u16be_be16]
  exact if_pos header

theorem decodeResponse_exceptionFrame (tid : Half) (unit : Byte) (fc7 : BitVec 7) (code : Byte) :
    decodeResponse (exceptionFrame tid unit fc7 code) = .ok (.rspException tid unit fc7 code) := by
  have header : headerOK (u16be 0 0) 3 (1#1 ++ fc7) = true :=
    (headerOK_iff _ _ _).mpr ⟨u16be_zero, .inl ⟨msb_high_bit fc7, rfl⟩⟩
  rw [exceptionFrame, frame_of_length (n := 3) rfl]
  simp only [decodeResponse, u16be_be16, msb_high_bit, low_bits, if_true]
  exact if_pos header

/-- The bytes of a frame whose length field is right are the one frame of its fields (R104). -/
theorem frame_of_bytes {t1 t0 l1 l0 u : Byte} {pdu : List Byte} (h : 1 + pdu.length = (u16be l1 l0).toNat) :
    frame (u16be t1 t0) u pdu = t1 :: t0 :: 0 :: 0 :: l1 :: l0 :: u :: pdu := by
  rw [frame_of_length h, BitVec.ofNat_toNat, BitVec.setWidth_eq, u16be_high, u16be_low, u16be_high, u16be_low]

/-- What is read as a response is its encoding, in each of the three shapes (R75 to R77). -/
theorem encode_of_decodeResponse {bs : List Byte} {i : Instr} (h : decodeResponse bs = .ok i) :
    i.wf = true ∧ encode i = .rx bs := by
  rcases decodeResponse_cases h with ⟨t1, t0, u, f, x, rfl, hm, rfl⟩ | ⟨t1, t0, u, a1, a0, c1, c0, rfl, rfl⟩ |
    ⟨t1, t0, l1, l0, u, bc, data, rfl, hd, hl, hle, rfl⟩
  · refine ⟨rfl, ?_⟩
    rw [encode, exceptionFrame, high_bit_low_bits f hm, frame_of_bytes (l1 := 0) (l0 := 3) (by rw [toNat_u16be]; rfl)]
  · refine ⟨rfl, ?_⟩
    rw [encode, writeResponseFrame, be16_u16be, be16_u16be, frame_of_bytes (l1 := 0) (l0 := 6) (by rw [toNat_u16be]; rfl)]
    rfl
  · refine ⟨(byteCountOk_iff _).mpr (by omega), ?_⟩
    have count : BitVec.ofNat 8 data.length = bc := by rw [hd, BitVec.ofNat_toNat, BitVec.setWidth_eq]
    have len : 1 + (0x03 :: bc :: data).length = (u16be l1 l0).toNat := by simp; omega
    rw [encode, readResponseFrame, count]
    exact congrArg Encoded.rx (frame_of_bytes len)

end Sys2Proof
end

section
/-! ## Illegal commands (R72, R79) -/

namespace Sys2Proof

open Sys2Proof.Claims

theorem opField_toNat (w : Word) : (opField w).toNat = w.toNat / 2 ^ 24 := by
  rw [opField, BitVec.extractLsb'_toNat, Nat.shiftRight_eq_div_pow]
  omega

/-- No row of R72 has an OP value that R72 lists as unassigned. -/
theorem opcodeOf_of_unassigned {b : Byte} (h : Unassigned b.toNat) : opcodeOf b = none := by
  cases hb : opcodeOf b with
  | none => rfl
  | some o =>
    obtain rfl := op_of_opcodeOf hb
    have assigned : ¬ Unassigned o.op.toNat := by unfold Unassigned; cases o <;> decide
    exact absurd h assigned

/-- The statements' number of operand words is the decoder's, once they have all come (R71). -/
theorem operandCount_eq_operandWords {o : Opcode} {sub : Byte} {ops : List Word}
    (h : operandWords o.format sub (ops.headD 0) ≤ ops.length) :
    operandCount o sub ops = some (operandWords o.format sub (ops.headD 0)) := by
  revert h
  unfold operandCount
  cases o.format with
  | ACD =>
    intro h
    cases ops with
    | nil => cases h
    | cons w1 ops => simp [operandWords, loHalf, BitVec.extractLsb'_toNat]
  | _ => exact fun _ => rfl

theorem toNat_lt_of_mem_map_halfWord {vs : List Half} {w : Word} (hw : w ∈ vs.map halfWord) : w.toNat < 65536 := by
  obtain ⟨v, -, rfl⟩ := List.mem_map.mp hw
  rw [halfWord_toNat]
  exact v.isLt

/-- A command that is read has 0 in every field that its format marks 0 (R79). -/
theorem reservedZero_of_decodeOperands {o : Opcode} {sub : Byte} {arg : Half} {ops : List Word} {i : Instr}
    (h : decodeOperands o sub arg ops = some i) : ReservedZero o.format sub arg ops := by
  cases o with
  | readU16 | readU32 | readI32 | readF32 | expire => exact (formA_eq_some.mp h).1
  | setUnit | csrRead => exact (formU_eq_some.mp h).1
  | resetCounters | linkLost => exact (formN_eq_some.mp h).1
  | writeU32 | writeI32 | writeF32 => exact (formAV32_eq_some.mp h).1
  | decomposeU32 | decomposeI32 | decomposeF32 => exact (formV32_eq_some.mp h).1
  | encRead | writeU16 =>
    obtain ⟨hs, v, rfl, -⟩ := formAV16_eq_some.mp h
    exact ⟨hs, fun w => toNat_lt_of_mem_map_halfWord (vs := [v])⟩
  | decomposeU16 =>
    obtain ⟨⟨hs, ha⟩, v, rfl, -⟩ := formV16_eq_some.mp h
    exact ⟨hs, ha, fun w => toNat_lt_of_mem_map_halfWord (vs := [v])⟩
  | composeU16 | composeU32 | composeI32 | composeF32 =>
    obtain ⟨ha, vs, rfl, -⟩ := formNW_eq_some.mp h
    exact ⟨ha, fun w => toNat_lt_of_mem_map_halfWord⟩
  | encWrite =>
    obtain ⟨hs, c, vs, rfl, -⟩ := formACD_eq_some.mp h
    exact ⟨hs, fun w => toNat_lt_of_mem_map_halfWord (vs := c :: vs)⟩

theorem decodeCmd_of_unassigned {cw0 : Word} (h : opcodeOf (opField cw0) = none) (ops : List Word) :
    decodeCmd (cw0 :: ops) = .illegal .unassignedOpcode ops := by
  simp [decodeCmd, h]

theorem decodeCmd_of_reserved {cw0 : Word} {o : Opcode} {ops : List Word} {n : Nat} (ho : opcodeOf (opField cw0) = some o)
    (hn : operandCount o (subField cw0) ops = some n) (hl : n ≤ ops.length)
    (hr : ¬ ReservedZero o.format (subField cw0) (argField cw0) (ops.take n)) :
    decodeCmd (cw0 :: ops) = .illegal .reservedField (ops.drop n) := by
  have hd : decodeOperands o (subField cw0) (argField cw0) (ops.take n) = none :=
    Option.eq_none_iff_forall_ne_some.mpr fun i hi => hr (reservedZero_of_decodeOperands hi)
  simp [decodeCmd, ho, hn, Nat.not_lt.mpr hl, hd]

end Sys2Proof

namespace Sys2Proof.Machine

open Sys2Proof.Claims

/-- The answer to an illegal command is all that its step does (R79). -/
theorem step_of_illegal {s : State} {ts : List Turn} {ws rest : List Word} {why : Reject} (hts : s.turns = .cmd :: ts)
    (hin : s.cmdIn = ws) (hd : decodeCmd ws = .illegal why rest) :
    step s = .next (answer (taken s ts rest) (failed .illegalCommand)) := by
  rw [step, fetch_cmd s ts hts, State.takeCommand, hin, hd]
  rfl

end Sys2Proof.Machine
end

section
/-! ## RES over an instruction (R80), and the request frames in arithmetic (R73, R74) -/

namespace Sys2Proof.Machine

open Sys2Proof.Claims

theorem State.admitted_res (s : State) (fc : FunCode) (addr : Half) (n : Nat) (view : View) (values : List Half) :
    (s.admitted fc addr n view values).res = s.res ++ [{ status := .ok, tid := s.nextTid }] := by
  cases hf : findTid s.nextTid s.pend with
  | none => simp [State.admitted_fresh _ _ _ _ _ _ hf, State.res]
  | some e => simp [State.admitted_evicting _ _ _ _ _ _ e hf, State.res]

/-- A command appends one result to RES, a frame none. -/
theorem exec_res {i : Instr} {s t : State} (h : exec i s = .next t) :
    (i.port = .cmd ∧ ∃ r, t.res = s.res ++ [r]) ∨ (i.port ≠ .cmd ∧ t.res = s.res) := by
  rcases exec_cases h with ⟨r, hp, -, rfl⟩ | ⟨fc, a, n, v, vs, ha, -, -, -, rfl⟩ | ⟨u, rfl, rfl⟩ | ⟨rfl, rfl⟩ |
    ⟨tid, e, rfl, -, rfl⟩ | ⟨rfl, rfl⟩ | ⟨f, hp, rfl⟩ | ⟨tid, hp, -, rfl⟩ | ⟨tid, e, u, r, hp, -, rfl⟩
  · exact .inl ⟨hp, r, State.put_res s _⟩
  · obtain ⟨-, -, hp, -⟩ := admitArgs_sound ha
    exact .inl ⟨hp, _, s.admitted_res fc a n v vs⟩
  · exact .inl ⟨rfl, _, State.put_res _ _⟩
  · exact .inl ⟨rfl, _, State.put_res _ _⟩
  · exact .inl ⟨rfl, { status := .ok, tid := tid }, by simp [State.res]⟩
  · exact .inl ⟨rfl, { status := .ok }, by simp [State.res]⟩
  · exact .inr ⟨by simp [hp], by simp [State.res]⟩
  · exact .inr ⟨by simp [hp], rfl⟩
  · exact .inr ⟨by simp [hp], by simp [State.res]⟩

/-- `be16`, as the statements write it. -/
theorem be16_hi_lo (v : Half) : be16 v = [hi v, lo v] := be16_eq v

theorem frame_eq_hi_lo {pdu : List Byte} {n : Nat} (h : 1 + pdu.length = n) (tid : Half) (unit : Byte) :
    frame tid unit pdu =
      [hi tid, lo tid, 0x00, 0x00, hi (BitVec.ofNat 16 n), lo (BitVec.ofNat 16 n), unit] ++ pdu := by
  have zero : be16 0 = [0x00, 0x00] := by decide
  simp only [frame, h, zero, be16_hi_lo, List.cons_append, List.nil_append]

theorem readFrame_eq_readRequest (tid : Half) (unit : Byte) (addr count : Half) :
    readFrame tid unit addr count = readRequest tid unit addr count := by
  rw [readFrame, frame_eq_hi_lo (n := 6) rfl, be16_hi_lo, be16_hi_lo]
  rfl

theorem writeFrame_eq_writeRequest (tid : Half) (unit : Byte) (addr : Half) (values : List Half) :
    writeFrame tid unit addr values = writeRequest tid unit addr values := by
  have bytes : values.flatMap be16 = values.flatMap (fun v => [hi v, lo v]) := congrArg values.flatMap (funext be16_hi_lo)
  rw [writeFrame, frame_eq_hi_lo (n := 7 + 2 * values.length) (by simp; omega), bytes, be16_hi_lo, be16_hi_lo]
  rfl

end Sys2Proof.Machine
end

section
/-! ## The statements of the encoding family -/

namespace Sys2Proof.Machine

open Sys2Proof.Claims

/-- Settles O3: the command decoder takes each command's words, and the two frame decoders take the five frames. -/
theorem decodeOfEncodeIsTheInstruction : Obligations.DecodeOfEncodeIsTheInstruction := by
  intro i hw
  cases i with
  | reqReadHolding tid unit addr count => exact decodeRequest_readFrame tid unit addr count hw
  | reqWriteMultiple tid unit addr values => exact decodeRequest_writeFrame tid unit addr values hw
  | rspReadHolding tid unit data => exact decodeResponse_readResponseFrame tid unit data hw
  | rspWriteMultiple tid unit echoAddr echoCount => exact decodeResponse_writeResponseFrame tid unit echoAddr echoCount
  | rspException tid unit fc7 code => exact decodeResponse_exceptionFrame tid unit fc7 code
  | _ => exact decode_encode_of_command hw rfl

/-- Settles O5: the words were read as the command, and what is read is its encoding. -/
theorem decodedCommandWasItsEncoding : Obligations.DecodedCommandWasItsEncoding := by
  intro ws i rest h
  obtain ⟨o, sub, arg, ops, rfl, reads⟩ := reads_of_decodeCmd h
  obtain ⟨wf, encoded⟩ := encode_of_reads reads
  exact ⟨wf, _, encoded, rfl⟩

/-- Settles O4: the encoding is a command word with its operand words, and these are read whatever follows. -/
theorem commandStreamIsDelimited : Obligations.CommandStreamIsDelimited := fun _ _ rest hw h => decodeCmd_encode_append hw h rest

/-- Settles O6, by the three shapes of a response. -/
theorem decodedResponseWasItsEncoding : Obligations.DecodedResponseWasItsEncoding := fun _ _ h => encode_of_decodeResponse h

/-- Settles O7: for each of the two causes the decoder answers that the command is illegal, with all its words consumed. -/
theorem illegalCommandsChangeNothing : Obligations.IllegalCommandsChangeNothing := by
  intro s ts cw0 ops hts hin
  constructor
  · intro hu
    rw [← opField_toNat] at hu
    exact step_of_illegal hts hin (decodeCmd_of_unassigned (opcodeOf_of_unassigned hu) ops)
  · rintro o ho n rfl hl hr
    exact step_of_illegal hts hin (decodeCmd_of_reserved ho (operandCount_eq_operandWords hl) hl hr)

/-- Settles O19, by the cases of a step. -/
theorem oneResultPerCommand : Obligations.OneResultPerCommand := by
  intro s t h
  constructor
  · intro ts hts whole
    cases step_cases h with
    | command _ i rest _ hd hx =>
      rcases exec_res hx with ⟨-, answered⟩ | ⟨hp, -⟩
      · exact answered
      · exact absurd (decodeCmd_port hd) hp
    | illegal => subst t; exact ⟨_, State.put_res _ _⟩
    | noCommand _ _ hd => exact absurd hd whole
    | idle hts' | noByte _ hts' | kept _ _ _ hts' | accepted _ _ _ hts' | discarded _ _ _ hts' | completed _ _ _ _ hts'
    | reset _ hts' => rw [hts] at hts'; cases hts'
  · intro noCommand
    cases step_cases h with
    | completed ts b rest i _ _ _ hd hx =>
      rcases exec_res hx with ⟨hp, -⟩ | ⟨-, kept⟩
      · rw [decodeResponse_port hd] at hp; cases hp
      · exact kept
    | command ts _ _ hts | illegal ts _ _ hts | noCommand ts hts => exact absurd hts (noCommand ts)
    | idle | noByte | kept | accepted | discarded | reset => subst t; rfl

/-- Settles O36: a request row transmits the encoder's frame, whose bytes are those of R73 and R74. -/
theorem requestFramesOnTheWire : Obligations.RequestFramesOnTheWire := by
  constructor
  · intro s tid unit addr count
    show Host.Outcome.next (s.transmit (readFrame tid unit addr count)) = _
    rw [readFrame_eq_readRequest]
    rfl
  · intro s tid unit addr values _
    show Host.Outcome.next (s.transmit (writeFrame tid unit addr values)) = _
    have counted := writeFrame_length tid unit addr values
    rw [writeFrame_eq_writeRequest] at counted ⊢
    rw [← counted]
    rfl

/-- Settles O1: the 23 rows and 5 views one by one, and no row has an unassigned value. -/
theorem opcodeMapIsTheTable : Obligations.OpcodeMapIsTheTable := by
  unfold Obligations.OpcodeMapIsTheTable
  refine ⟨by decide, by decide, ?_, fun b => opcodeOf_of_unassigned⟩
  intro v
  cases v <;> rfl

end Sys2Proof.Machine
end

section
/-! SUPPORT. The encode family (spec/41_frame_encode.md): an encode command in the statements' own terms, what it inserts in the
table and puts on TX, and the statements settled from that. -/

/-! ## An encode command is `Admit` of its request (R100) -/

namespace Sys2Proof.Machine

open Sys2Proof.Claims

variable {i : Instr} {r : Request} {s t : State}

/-- R110, R111, R160 to R167: an encode command runs `Admit` on its request. -/
theorem exec_of_requestOf (hr : requestOf i = some r) (s : State) :
    exec i s = .next (s.tryAdmit r.fc r.addr r.n r.view r.values) :=
  exec_admitArgs (requestOf_eq_some_iff.mp hr) s

theorem port_of_requestOf (hr : requestOf i = some r) : i.port = .cmd := by
  obtain ⟨-, -, hp, -⟩ := admitArgs_sound (requestOf_eq_some_iff.mp hr)
  exact hp

/-- The count check of `Admit`, in arithmetic (R100). -/
theorem countAllowed_iff_countAdmitted (r : Request) : countAllowed r.fc r.n = true ↔ CountAdmitted r := by
  unfold countAllowed CountAdmitted
  cases r.fc with
  | readHolding => exact readCountOk_iff r.n
  | writeMultiple => exact writeCountOk_iff r.n

/-- The frame that `Admit` emits, in arithmetic (R73, R74). -/
theorem requestFrame_eq_frameOf (s : State) (r : Request) :
    requestFrame r.fc s.nextTid s.unit.id r.addr r.n r.values = frameOf s r := by
  unfold requestFrame frameOf
  cases r.fc with
  | readHolding => exact readFrame_eq_readRequest _ _ _ _
  | writeMultiple => exact writeFrame_eq_writeRequest _ _ _ _

/-- R106: 12 bytes for a 0x03 request, 13 + 2N for a 0x10 request. -/
theorem frameOf_length (hr : requestOf i = some r) (s : State) : (frameOf s r).length = frameLength r := by
  obtain ⟨-, -, -, counted⟩ := admitArgs_sound (requestOf_eq_some_iff.mp hr)
  rw [← requestFrame_eq_frameOf]
  unfold requestFrame frameLength
  cases hfc : r.fc with
  | readHolding => exact readFrame_length _ _ _ _
  | writeMultiple => exact (writeFrame_length _ _ _ _).trans (by rw [counted hfc])

/-! ### The completion of an evicted entry (R102), and the state after an admission -/

/-- What R102 puts on CPL at an admission: the Timeout completion of the entry that holds NEXT_TID, if one does. -/
def State.evictions (s : State) : List Output :=
  (findTid s.nextTid s.pend).toList.map (fun e => Output.cpl (failRecord e .timeout))

theorem State.evictions_of_fresh (h : findTid s.nextTid s.pend = none) : s.evictions = [] := by
  simp [State.evictions, h]

theorem State.evictions_of_reused {e : Entry} (h : findTid s.nextTid s.pend = some e) :
    s.evictions = [.cpl (failRecord e .timeout)] := by
  simp [State.evictions, h]

/-- R100 to R102, R105, R106: the whole state after an admission, whether it evicts or not. -/
theorem State.admitted_eq_afterAdmission (hr : requestOf i = some r) (s : State) :
    s.admitted r.fc r.addr r.n r.view r.values = afterAdmission s r (removeTid s.nextTid s.pend) s.evictions := by
  unfold afterAdmission
  rw [← frameOf_length hr s, ← requestFrame_eq_frameOf]
  cases hf : findTid s.nextTid s.pend with
  | none =>
    rw [State.admitted_fresh _ _ _ _ _ _ hf, State.evictions_of_fresh hf, removeTid_of_absent hf, List.append_nil]
    rfl
  | some e =>
    rw [State.admitted_evicting _ _ _ _ _ _ e hf, State.evictions_of_reused hf, List.append_assoc]
    rfl

theorem afterAdmission_res (s : State) (r : Request) (kept : List Entry) :
    (afterAdmission s r kept s.evictions).res = s.res ++ [{ status := .ok, tid := s.nextTid }] := by
  simp [afterAdmission, State.evictions, State.res]

theorem afterAdmission_tx (s : State) (r : Request) (kept : List Entry) :
    (afterAdmission s r kept s.evictions).tx = s.tx ++ frameOf s r := by
  simp [afterAdmission, State.evictions, State.tx]

/-! ### The four answers of an encode command (R100) -/

section answers

variable (hr : requestOf i = some r)
include hr

theorem exec_of_unit_unset (hv : s.unit.valid = false) : exec i s = .next (answer s (failed .deviceIDNotSet)) := by
  rw [exec_of_requestOf hr, State.tryAdmit, if_pos hv]
  rfl

theorem exec_of_bad_count (hv : s.unit.valid = true) (hc : ¬ CountAdmitted r) :
    exec i s = .next (answer s (failed .dataOverflow)) := by
  rw [← countAllowed_iff_countAdmitted, Bool.not_eq_true] at hc
  rw [exec_of_requestOf hr, State.tryAdmit, if_neg (by simp [hv]), if_pos hc]
  rfl

theorem exec_of_table_full (hv : s.unit.valid = true) (hc : CountAdmitted r)
    (full : findTid s.nextTid s.pend = none ∧ s.pend.length = s.cfg.maxPending) :
    exec i s = .next (answer s (failed .pendingFull)) := by
  rw [← countAllowed_iff_countAdmitted] at hc
  rw [exec_of_requestOf hr, State.tryAdmit, if_neg (by simp [hv]), if_neg (by simp [hc]), if_pos full]
  rfl

theorem exec_of_admission (hv : s.unit.valid = true) (hc : CountAdmitted r)
    (room : ¬ (findTid s.nextTid s.pend = none ∧ s.pend.length = s.cfg.maxPending)) :
    exec i s = .next (afterAdmission s r (removeTid s.nextTid s.pend) s.evictions) := by
  rw [← countAllowed_iff_countAdmitted] at hc
  rw [exec_of_requestOf hr, State.tryAdmit, if_neg (by simp [hv]), if_neg (by simp [hc]), if_neg room,
    State.admitted_eq_afterAdmission hr]

/-- R100 with a transaction ID that no entry holds, and room in the table. -/
theorem exec_of_fresh_admission (hv : s.unit.valid = true) (hc : CountAdmitted r) (fresh : ∀ e ∈ s.pend, e.tid ≠ s.nextTid)
    (room : s.pend.length ≠ s.cfg.maxPending) : exec i s = .next (afterAdmission s r s.pend []) := by
  have absent := findTid_eq_none.mpr fresh
  rw [exec_of_admission hr hv hc fun full => room full.2, removeTid_of_absent absent, State.evictions_of_fresh absent]

/-- Everything an encode command can do: it answers a failure and changes nothing else, or it is admitted. -/
theorem exec_refused_or_admitted (s : State) :
    (∃ st, st ≠ .ok ∧ exec i s = .next (answer s (failed st))) ∨
    exec i s = .next (afterAdmission s r (removeTid s.nextTid s.pend) s.evictions) := by
  by_cases hv : s.unit.valid = true
  · by_cases hc : CountAdmitted r
    · by_cases full : findTid s.nextTid s.pend = none ∧ s.pend.length = s.cfg.maxPending
      · exact .inl ⟨_, by decide, exec_of_table_full hr hv hc full⟩
      · exact .inr (exec_of_admission hr hv hc full)
    · exact .inl ⟨_, by decide, exec_of_bad_count hr hv hc⟩
  · exact .inl ⟨_, by decide, exec_of_unit_unset hr (Bool.eq_false_iff.mpr hv)⟩

end answers

/-! ## What a command inserts in the table, and what an instruction puts on TX -/

/-- The entries in the table after a command (R105). -/
theorem command_inserts {e : Entry} (hp : i.port = .cmd) (h : exec i s = .next t) (he : e ∈ t.pend) :
    e ∈ s.pend ∨ ∃ r, requestOf i = some r ∧ CountAdmitted r ∧ e = entryOf s r := by
  cases command_cases hp h with
  | admitted r counted added hr hc _ ht =>
    subst ht
    rcases List.mem_append.mp he with old | new
    · exact .inl (removeTid_subset old)
    · exact .inr ⟨r, hr, (countAllowed_iff_countAdmitted r).mp hc, List.mem_singleton.mp new⟩
  | expired tid added _ ht => subst ht; exact .inl (removeTid_subset he)
  | lost added _ ht => subst ht; cases he
  | answered | unitSet | countersReset => subst t; exact .inl he

/-- What the step from `s` to `t` by `i` puts on TX: the bytes `f`, counted in TX_BYTES, and none but by an encode command or a
request row (R106). -/
structure Transmits (i : Instr) (s t : State) (f : List Byte) : Prop where
  onTx : t.tx = s.tx ++ f
  counted : i ≠ .resetCounters → t.txBytes = s.txBytes + BitVec.ofNat 32 f.length
  unasked : requestOf i = none → i.port ≠ .tx → f = []

theorem Transmits.nothing (htx : t.tx = s.tx) (hb : i ≠ .resetCounters → t.txBytes = s.txBytes) : Transmits i s t [] :=
  ⟨by simpa using htx, by simpa using hb, fun _ _ => rfl⟩

/-- R106, for every instruction: of the nine shapes of a next state, the admission and the emission write TX. -/
theorem exec_transmits (h : exec i s = .next t) : ∃ f, Transmits i s t f := by
  rcases exec_cases h with ⟨r, -, -, rfl⟩ | ⟨fc, a, n, v, vs, ha, -, -, -, rfl⟩ | ⟨u, -, rfl⟩ | ⟨hi, rfl⟩ |
    ⟨tid, e, -, -, rfl⟩ | ⟨-, rfl⟩ | ⟨f, hp, rfl⟩ | ⟨tid, -, -, rfl⟩ | ⟨tid, e, u, r, -, -, rfl⟩
  · exact ⟨[], .nothing (by simp [State.tx]) fun _ => rfl⟩
  · have hr := requestOf_eq_some_iff.mpr ha
    rw [State.admitted_eq_afterAdmission hr]
    exact ⟨_, afterAdmission_tx s _ _, fun _ => by rw [frameOf_length hr]; rfl, fun hn => by rw [hr] at hn; cases hn⟩
  · exact ⟨[], .nothing (by simp [State.tx]) fun _ => rfl⟩
  · exact ⟨[], .nothing (by simp [State.tx]) fun hne => absurd hi hne⟩
  · exact ⟨[], .nothing (by simp [State.tx]) fun _ => rfl⟩
  · exact ⟨[], .nothing (by simp [State.tx]) fun _ => rfl⟩
  · exact ⟨f, by simp [State.tx], fun _ => rfl, fun _ hne => absurd hp hne⟩
  · exact ⟨[], .nothing rfl fun _ => rfl⟩
  · exact ⟨[], .nothing (by simp [State.tx]) fun _ => rfl⟩

/-- An instruction that is no encode command and no request row leaves TX (R106). -/
theorem exec_keeps_tx (hr : requestOf i = none) (hp : i.port ≠ .tx) (h : exec i s = .next t) : t.tx = s.tx := by
  obtain ⟨f, sent⟩ := exec_transmits h
  simpa [sent.unasked hr hp] using sent.onTx

theorem requestOf_of_response (hp : i.port = .rx) : requestOf i = none := by
  cases hr : requestOf i with
  | none => rfl
  | some r => rw [port_of_requestOf hr] at hp; cases hp

end Sys2Proof.Machine
end

section
/-! ## The statements of the encode family -/

namespace Sys2Proof.Machine

open Sys2Proof.Claims

/-- Settles O28: the unit check comes first, and then the count check. -/
theorem encodeCommandsCheckUnitThenCount : Obligations.EncodeCommandsCheckUnitThenCount := fun _ _ _ hr =>
  ⟨exec_of_unit_unset hr, exec_of_bad_count hr⟩

/-- Settles O29: no entry to evict, and the table full. -/
theorem fullTableRefusesEncodeCommands : Obligations.FullTableRefusesEncodeCommands := fun _ _ _ hr hv hc full fresh =>
  exec_of_table_full hr hv hc ⟨findTid_eq_none.mpr fresh, full⟩

/-- Settles O30: nothing is evicted, and `frameOf` is R73's frame. -/
theorem admittedReadsNextState : Obligations.AdmittedReadsNextState := fun _ _ _ hr _ hv hc fresh room =>
  exec_of_fresh_admission hr hv hc fresh room

/-- Settles O31: `requestOf` gives a 32-bit value's registers high word first. -/
theorem admittedWritesNextState : Obligations.AdmittedWritesNextState := fun _ _ _ hr _ hv hc fresh room =>
  exec_of_fresh_admission hr hv hc fresh room

/-- Settles O32: with distinct transaction IDs the entry found is the given one, and removing it leaves the others. -/
theorem reusedTransactionIdIsEvicted : Obligations.ReusedTransactionIdIsEvicted := by
  intro i r s e hr hv hc distinct he htid
  have found := findTid_of_mem distinct he htid
  have room : ¬ (findTid s.nextTid s.pend = none ∧ s.pend.length = s.cfg.maxPending) := by simp [found]
  rw [exec_of_admission hr hv hc room, State.evictions_of_reused found, removeTid_eq_filter distinct, htid]
  rfl

/-- Settles O33: a refusal keeps NEXT_TID, and an admission uses it and advances it. -/
theorem transactionIdsAreAllocatedInTurn : Obligations.TransactionIdsAreAllocatedInTurn := by
  intro i r s t hr h
  rcases exec_refused_or_admitted hr s with ⟨st, hst, hx⟩ | hx
  · obtain rfl := Host.Outcome.next.inj (h.symm.trans hx)
    exact .inr ⟨st, hst, State.put_res s _, rfl⟩
  · obtain rfl := Host.Outcome.next.inj (h.symm.trans hx)
    exact .inl ⟨afterAdmission_res s r _, List.mem_append_right _ (List.mem_singleton.mpr rfl),
      BitVec.toNat_add s.nextTid 1⟩

/-- Settles O34: only a command inserts an entry, and frames only remove. -/
theorem entriesAreSnapshots : Obligations.EntriesAreSnapshots := by
  intro s t h e he
  cases step_cases h with
  | command ts i rest hts hd hx =>
    rcases command_inserts (decodeCmd_port hd) hx he with old | ⟨r, hr, hc, hnew⟩
    · exact .inl old
    · exact .inr ⟨ts, i, r, rest, hts, hd, hr, hc, hnew⟩
  | completed ts b rest i _ _ _ hd hx =>
    obtain ⟨tid, -, hpend, -⟩ := response_writes (decodeResponse_port hd) hx
    rw [hpend] at he
    exact .inl (removeTid_subset he)
  | reset _ _ ht => subst ht; cases he
  | idle | noCommand | illegal | noByte | kept | accepted | discarded => subst t; exact .inl he

/-- Settles O37: by what one instruction puts on TX, and by the cases of a step. -/
theorem transmittedBytesAreCounted : Obligations.TransmittedBytesAreCounted := by
  refine ⟨?_, ?_, fun i s t hr hp h => exec_keeps_tx hr hp h, ?_⟩
  · intro i s t h hne
    obtain ⟨f, sent⟩ := exec_transmits h
    rw [sent.counted hne, sent.onTx, List.length_append, Nat.add_sub_cancel_left]
  · intro i r s t hr h
    rcases exec_refused_or_admitted hr s with ⟨st, -, hx⟩ | hx
    · obtain rfl := Host.Outcome.next.inj (h.symm.trans hx)
      exact .inl ((State.put_tx s (.res (failed st))).trans (List.append_nil s.tx))
    · obtain rfl := Host.Outcome.next.inj (h.symm.trans hx)
      exact .inr ⟨_, afterAdmission_tx s r _, frameOf_length hr s⟩
  · intro s t notCmd h
    cases step_cases h with
    | completed ts b rest i _ _ _ hd hx =>
      have hp := decodeResponse_port hd
      have kept := exec_keeps_tx (requestOf_of_response hp) (by rw [hp]; decide) hx
      exact kept
    | command ts _ _ hts | illegal ts _ _ hts | noCommand ts hts => exact absurd hts (notCmd ts)
    | idle | noByte | kept | accepted | discarded | reset => subst t; rfl

/-- Settles O2: each clause runs a decoder on fixed words or bytes. -/
theorem writtenWordsDecode : Obligations.WrittenWordsDecode := by
  unfold Obligations.WrittenWordsDecode
  decide

end Sys2Proof.Machine
end

section
/-! SUPPORT. The frame-decode family (spec/42_frame_decode.md): a receive step in the statements' own terms, a frame delivered
byte by byte, what a response completes its entry with, and the statements settled from that. -/

/-! ## A receive step is the decoder's branch on the received byte (R120) -/

namespace Sys2Proof.Machine

open Sys2Proof.Claims

section byte

variable {s : State} {ts : List Turn} {b : Byte} {rest : List Byte}

theorem fetch_of_byte (hts : s.turns = .rx :: ts) (hb : s.rxIn = b :: rest) :
    fetch s = { s with turns := ts, rxIn := rest }.receive b := by
  rw [fetch_rx s ts hts, State.takeByte, hb]

theorem State.receive_awaitHeader (hd : s.dec = .awaitHeader) : s.receive b = (s.withByte b).receiveHeader := by
  rw [State.receive_eq, hd]

theorem State.receive_awaitBody (hd : s.dec = .awaitBody) : s.receive b = (s.withByte b).receiveBody := by
  rw [State.receive_eq, hd]

theorem fetch_awaitHeader (hts : s.turns = .rx :: ts) (hb : s.rxIn = b :: rest) (hd : s.dec = .awaitHeader) :
    fetch s = (received s ts b rest).receiveHeader :=
  (fetch_of_byte hts hb).trans (State.receive_awaitHeader (s := { s with turns := ts, rxIn := rest }) hd)

theorem fetch_awaitBody (hts : s.turns = .rx :: ts) (hb : s.rxIn = b :: rest) (hd : s.dec = .awaitBody) :
    fetch s = (received s ts b rest).receiveBody :=
  (fetch_of_byte hts hb).trans (State.receive_awaitBody (s := { s with turns := ts, rxIn := rest }) hd)

/-- What the step that receives a frame's last byte does (R126). -/
theorem step_of_completed {i : Instr} (hts : s.turns = .rx :: ts) (hb : s.rxIn = b :: rest) (hd : s.dec = .awaitBody)
    (hi : decodeResponse (s.rxBuf ++ [b]) = .ok i) : step s = exec i { received s ts b rest with dec := .dispatched } := by
  rw [step, fetch_of_byte hts hb, State.receive_completed (s := { s with turns := ts, rxIn := rest }) hd hi]
  rfl

end byte

/-! ### The two branches, by what RXBUF holds -/

section branches

variable {s : State} {t1 t0 p1 p0 l1 l0 u f : Byte} {body : List Byte}

theorem receiveHeader_of_short (h : s.rxBuf.length < 8) : s.receiveHeader = .done s := by
  rcases s.receiveHeader_cases with ⟨-, hr⟩ | ⟨_, _, _, _, _, _, _, _, _, hb, -⟩
  · exact hr
  · rw [hb] at h
    simp only [List.length_cons] at h
    omega

theorem receiveHeader_of_accepted (hb : s.rxBuf = t1 :: t0 :: p1 :: p0 :: l1 :: l0 :: u :: f :: body)
    (ok : headerOK (u16be p1 p0) (u16be l1 l0) f = true) : s.receiveHeader = .done { s with dec := .awaitBody } := by
  simp [State.receiveHeader, hb, ok]

theorem receiveHeader_of_refused (hb : s.rxBuf = t1 :: t0 :: p1 :: p0 :: l1 :: l0 :: u :: f :: body)
    (bad : headerOK (u16be p1 p0) (u16be l1 l0) f = false) : s.receiveHeader = .done s.framingError := by
  simp [State.receiveHeader, hb, bad]

theorem receiveBody_of_wrong_count (hb : s.rxBuf = t1 :: t0 :: p1 :: p0 :: l1 :: l0 :: u :: f :: body)
    (wrong : byteCountWrong f (u16be l1 l0).toNat body = true) : s.receiveBody = .done s.framingError := by
  simp [State.receiveBody, hb, wrong]

theorem receiveBody_of_partial (hb : s.rxBuf = t1 :: t0 :: p1 :: p0 :: l1 :: l0 :: u :: f :: body)
    (right : byteCountWrong f (u16be l1 l0).toNat body = false) (short : s.rxBuf.length ≠ 6 + (u16be l1 l0).toNat) :
    s.receiveBody = .done s := by
  rw [hb] at short
  simp only [State.receiveBody, hb, right, if_neg short]
  rfl

end branches

/-- The header check of R123 is the statements' one. -/
theorem headerOK_iff_headerPasses (p1 p0 l1 l0 f : Byte) :
    headerOK (u16be p1 p0) (u16be l1 l0) f = true ↔ HeaderPasses (be p1 p0) (be l1 l0) f := by
  have number : ∀ (a b : Byte) (n : Half), u16be a b = n ↔ be a b = n.toNat := fun a b n => by
    rw [← BitVec.toNat_inj, toNat_u16be, be]
  have byte : ∀ n : Byte, f = n ↔ f.toNat = n.toNat := fun n => BitVec.toNat_inj.symm
  rw [headerOK_iff, number, number, number, byte, byte, BitVec.msb_eq_decide, decide_eq_true_iff, toNat_u16be]
  rfl

/-- The check of R125 is one of the 9th byte of a read response only. -/
theorem byteCountWrong_eq_false_of_not_ninth {f : Byte} {len : Nat} {body : List Byte} (h : ¬ (f = 0x03 ∧ body.length = 1)) :
    byteCountWrong f len body = false := by
  match body with
  | [] | _ :: _ :: _ => rfl
  | [bc] => exact byteCountWrong_singleton_eq_false_iff.mpr fun hf => absurd ⟨hf, rfl⟩ h

theorem byteCountWrong_eq_false_of_checked {f : Byte} {len : Nat} {body : List Byte} (h : ByteCountChecked f len body) :
    byteCountWrong f len body = false := by
  match body with
  | [] | _ :: _ :: _ => rfl
  | [bc] => exact byteCountWrong_singleton_eq_false_iff.mpr (h bc [] rfl)

/-! ### The bounds of the receive buffer (R134) -/

/-- An accepted length field is at most MAX_LEN (R123). -/
theorem headerOK_le_maxLen {pid len : Half} {f : Byte} (h : headerOK pid len f = true) : len.toNat ≤ 254 := by
  obtain ⟨-, ⟨-, rfl⟩ | ⟨-, rfl⟩ | ⟨-, -, hl⟩⟩ := (headerOK_iff pid len f).mp h
  · decide
  · decide
  · exact hl

/-- The bounds of R134 are what a sound receiver says (R27, R123). -/
theorem bufferBounded_of_rxSound {s : State} (rx : s.rxSound = true) : BufferBounded s := by
  cases hd : s.dec with
  | awaitHeader =>
    have short := (State.rxSound_awaitHeader_iff hd).mp rx
    simp only [BufferBounded, hd]
    exact ⟨by omega, fun _ => short, iff_of_false nofun (by omega), nofun, nofun⟩
  | awaitBody =>
    obtain ⟨t1, t0, p1, p0, l1, l0, u, f, body, hb, ok, short, -⟩ := (State.rxSound_awaitBody_iff hd).mp rx
    have small := headerOK_le_maxLen ok
    have eight : 8 ≤ s.rxBuf.length := by simp [hb]
    simp only [BufferBounded, hd]
    refine ⟨by omega, nofun, iff_of_true trivial eight, nofun, ?_⟩
    intro t1' t0' p1' p0' l1' l0' u' f' body' _ hb'
    simp only [hb, List.cons.injEq] at hb'
    obtain ⟨-, -, -, -, rfl, rfl, -⟩ := hb'
    rw [toNat_u16be, ← be] at short small
    exact ⟨by omega, small⟩
  | dispatched => simp [State.rxSound, hd] at rx

end Sys2Proof.Machine
end

section
/-! ## A frame byte by byte (R120, R126) -/

namespace Sys2Proof.Machine

open Sys2Proof.Claims

/-- The decoder's state between steps when `n` bytes of a frame are buffered (R27). -/
def decoderAt (n : Nat) : DecState := if n < 8 then .awaitHeader else .awaitBody

theorem decoderAt_of_lt {n : Nat} (h : n < 8) : decoderAt n = .awaitHeader := if_pos h

theorem decoderAt_of_le {n : Nat} (h : 8 ≤ n) : decoderAt n = .awaitBody := if_neg h.not_gt

/-- Whatever is read as a response passes the checks of R123 and R125 and is as long as its length field says: the converse of
`decodeResponse_of_complete`. -/
theorem complete_of_decodeResponse {bs : List Byte} {i : Instr} (h : decodeResponse bs = .ok i) :
    ∃ t1 t0 p1 p0 l1 l0 u f body, bs = t1 :: t0 :: p1 :: p0 :: l1 :: l0 :: u :: f :: body ∧
      headerOK (u16be p1 p0) (u16be l1 l0) f = true ∧ bs.length = 6 + (u16be l1 l0).toNat ∧
      ByteCountChecked f (u16be l1 l0).toNat body := by
  rcases decodeResponse_cases h with ⟨t1, t0, u, f, x, rfl, hm, -⟩ | ⟨t1, t0, u, a1, a0, c1, c0, rfl, -⟩ |
    ⟨t1, t0, l1, l0, u, bc, data, rfl, hd, hl, hle, -⟩
  · refine ⟨_, _, _, _, _, _, _, _, _, rfl, (headerOK_iff _ _ _).mpr ⟨rfl, .inl ⟨hm, rfl⟩⟩, rfl, ?_⟩
    rintro bc data - rfl
    exact absurd hm (by decide)
  · refine ⟨_, _, _, _, _, _, _, _, _, rfl, by decide, rfl, ?_⟩
    intro bc data _ hf
    exact absurd hf (by decide)
  · refine ⟨_, _, _, _, _, _, _, _, _, rfl, (headerOK_iff _ _ _).mpr ⟨rfl, .inr (.inr ⟨rfl, by omega, by omega⟩)⟩,
      by simp only [List.length_cons]; omega, ?_⟩
    intro bc' data' hb _
    obtain ⟨rfl, -⟩ := List.cons.inj hb
    exact hl

/-- The beginning of a body whose byte count was checked is checked too. -/
theorem ByteCountChecked.take {f : Byte} {len : Nat} {body : List Byte} (h : ByteCountChecked f len body) (m : Nat) :
    ByteCountChecked f len (body.take m) := fun bc data hb =>
  h bc (data ++ body.drop m) (by rw [← List.cons_append, ← hb, List.take_append_drop])

theorem State.run_one (s : State) : State.run 1 s = step s := by
  simp only [State.run]
  cases step s <;> rfl

theorem State.run_of_step {s t : State} {k : Nat} (h : step s = .next t) : State.run (k + 1) s = State.run k t := by
  rw [State.run, h]

/-- A step that receives a byte of a frame, but for the last one, keeps it and moves the decoder at the 8th. -/
theorem step_of_frame_byte {s : State} {ts : List Turn} {b : Byte} {post rest : List Byte} {i : Instr}
    (hts : s.turns = .rx :: ts) (hb : s.rxIn = b :: rest) (hd : s.dec = decoderAt s.rxBuf.length)
    (hi : decodeResponse ((s.rxBuf ++ [b]) ++ post) = .ok i) (more : post ≠ []) :
    step s = .next { received s ts b rest with dec := decoderAt (s.rxBuf ++ [b]).length } := by
  obtain ⟨t1, t0, p1, p0, l1, l0, u, f, body, hf, ok, len, checked⟩ := complete_of_decodeResponse hi
  have short : (s.rxBuf ++ [b]).length < 6 + (u16be l1 l0).toNat := by
    have := List.length_pos_of_ne_nil more
    rw [List.length_append] at len
    omega
  have count : (s.rxBuf ++ [b]).length = s.rxBuf.length + 1 := List.length_append
  rcases Nat.lt_or_ge (s.rxBuf ++ [b]).length 8 with h8 | h8
  · have hd' : s.dec = .awaitHeader := hd.trans (decoderAt_of_lt (by omega))
    rw [step, fetch_awaitHeader hts hb hd', receiveHeader_of_short h8, decoderAt_of_lt h8, ← hd']
    rfl
  · obtain ⟨m, hm⟩ := Nat.exists_eq_add_of_le' h8
    have hbuf : s.rxBuf ++ [b] = t1 :: t0 :: p1 :: p0 :: l1 :: l0 :: u :: f :: body.take m :=
      (List.take_left' hm).symm.trans (by rw [hf]; rfl)
    rw [decoderAt_of_le h8, step]
    rcases Nat.lt_or_ge s.rxBuf.length 8 with h7 | h7
    · rw [fetch_awaitHeader hts hb (hd.trans (decoderAt_of_lt h7)), receiveHeader_of_accepted hbuf ok]
    · have hd' : s.dec = .awaitBody := hd.trans (decoderAt_of_le h7)
      have right := byteCountWrong_eq_false_of_checked (checked.take m)
      rw [fetch_awaitBody hts hb hd', receiveBody_of_partial hbuf right short.ne, ← hd']
      rfl

/-- The rest of a frame, received from a state that holds its beginning, runs the frame's instruction at the last byte. -/
theorem run_rest_of_frame {i : Instr} {post : List Byte} (more : post ≠ []) {s : State} {ts : List Turn} {rest : List Byte}
    (hd : s.dec = decoderAt s.rxBuf.length) (hi : decodeResponse (s.rxBuf ++ post) = .ok i)
    (hts : s.turns = List.replicate post.length .rx ++ ts) (hb : s.rxIn = post ++ rest) :
    State.run post.length s = exec i { s with
      turns := ts
      rxIn := rest
      rxBytes := s.rxBytes + BitVec.ofNat 32 post.length
      rxBuf := s.rxBuf ++ post
      dec := .dispatched } := by
  induction post generalizing s with
  | nil => exact absurd rfl more
  | cons b post ih =>
    by_cases last : post = []
    · subst last
      obtain ⟨_, _, _, _, _, _, _, _, _, -, ok, len, -⟩ := complete_of_decodeResponse hi
      have three := headerOK_three_le ok
      have hd' : s.dec = .awaitBody := by
        rw [List.length_append, List.length_singleton] at len
        rw [hd, decoderAt_of_le (by omega)]
      exact (State.run_one s).trans (step_of_completed hts hb hd' hi)
    · have kept := step_of_frame_byte hts hb hd (post := post) (by simpa using hi) last
      have counted : s.rxBytes + 1#32 + BitVec.ofNat 32 post.length = s.rxBytes + BitVec.ofNat 32 (post.length + 1) := by
        rw [Nat.add_comm, BitVec.ofNat_add, BitVec.add_assoc]
      rw [List.length_cons, State.run_of_step kept, ih last rfl (by simpa [received] using hi) rfl rfl, ← counted]
      simp [received]

end Sys2Proof.Machine
end

section
/-! ## What a response does to the table and to CPL (R126 to R131) -/

namespace Sys2Proof.Machine

open Sys2Proof.Claims

/-- A response is dispatched by its transaction ID, and the decoder's cycle ends (R126, R127). -/
theorem exec_of_responseTid {i : Instr} {tid : Half} (h : responseTid i = some tid) :
    ∃ unit r, ∀ s, exec i s = .next (s.dispatch tid unit r).endFrame := by
  cases i <;> cases h
  case rspReadHolding unit data => exact ⟨unit, .read data, fun _ => rfl⟩
  case rspWriteMultiple unit ea ec => exact ⟨unit, .write ea ec, fun _ => rfl⟩
  case rspException unit fc7 x => exact ⟨unit, .exception fc7 x, fun _ => rfl⟩

theorem exec_of_unmatched {s : State} {tid : Half} {i : Instr} {unit : Byte} {r : Response}
    (hx : ∀ s, exec i s = .next (s.dispatch tid unit r).endFrame) (absent : ∀ e ∈ s.pend, e.tid ≠ tid) :
    exec i s = .next (dropped s) := by
  rw [hx, State.dispatch_none _ _ _ _ (findTid_eq_none.mpr absent)]
  rfl

/-- A response of an entry's transaction ID resolves exactly that entry. -/
theorem exec_of_matched {s : State} {e : Entry} {i : Instr} {unit : Byte} {r : Response}
    (hx : ∀ s, exec i s = .next (s.dispatch e.tid unit r).endFrame) (distinct : Distinct s) (he : e ∈ s.pend) :
    exec i s = .next (resolved s e.tid (resolve e unit r)) := by
  rw [hx, State.dispatch_some _ _ _ _ e (findTid_of_mem distinct he rfl), removeTid_eq_filter distinct]
  rfl

/-! ### The checks of R128, in their order -/

theorem resolve_of_other_unit {e : Entry} {unit : Byte} (h : unit ≠ e.unit) (r : Response) :
    resolve e unit r = { startRecord e r with status := .badServer } := if_pos h

/-- The low 7 bits of a function-code byte are compared as numbers. -/
theorem setWidth_eq_code_iff (fc7 : BitVec 7) (fc : FunCode) : fc7.setWidth 8 = fc.code ↔ fc7.toNat = fcNumber fc := by
  rw [← BitVec.toNat_inj, BitVec.toNat_setWidth_of_le (by decide)]
  cases fc <;> rfl

section sameUnit

variable (e : Entry)

theorem resolve_read (data : List Byte) : resolve e e.unit (.read data) =
    if e.fc ≠ .readHolding then record e .invalidData 0 0 0 0 e.wvals
    else if data.length ≠ 2 * e.count.toNat then record e .unexpectedRegisterCount 0 0 0 0 e.wvals
    else record e .ok 0 0 0 (viewValue e.view (wordsOf data)) (wordsOf data) := if_neg (not_not_intro rfl)

theorem resolve_write (ea ec : Half) : resolve e e.unit (.write ea ec) =
    if e.fc ≠ .writeMultiple then record e .invalidData 0 ea ec 0 e.wvals
    else if ec ≠ e.count then record e .unexpectedRegisterCount 0 ea ec 0 e.wvals
    else record e .ok 0 ea ec 0 e.wvals := if_neg (not_not_intro rfl)

theorem resolve_exception (fc7 : BitVec 7) (x : Byte) : resolve e e.unit (.exception fc7 x) =
    if fc7.toNat ≠ fcNumber e.fc then record e .invalidData x 0 0 0 e.wvals
    else record e (excKind x) x 0 0 0 e.wvals := by
  simp only [ne_eq, ← setWidth_eq_code_iff]
  exact if_neg (not_not_intro rfl)

end sameUnit

/-- `ViewValue`, as the statements write it, for a word list of the view's length (R150, R151). -/
theorem viewValue_eq_typedValue {view : View} {words : List Half} (h : viewCountOk view words.length = true) :
    viewValue view words = typedValue view words := by
  have pair : ∀ h l : Half, compose32 h l = BitVec.ofNat 32 (65536 * h.toNat + l.toNat) := fun h l => by
    rw [← compose32_toNat, BitVec.ofNat_toNat, BitVec.setWidth_eq]
  cases view with
  | raw => rfl
  | u16 =>
    obtain ⟨w, rfl⟩ := List.length_eq_one_iff.mp (by simpa [viewCountOk, View.wordCount] using h)
    exact (BitVec.ofNat_toNat 32 w).symm
  | u32 | i32 | f32 =>
    obtain ⟨high, low, rfl⟩ := List.length_eq_two.mp (by simpa [viewCountOk, View.wordCount] using h)
    exact pair high low

/-- The words' bytes, as the statements write them. -/
theorem flatMap_hi_lo (words : List Half) : words.flatMap (fun w => [hi w, lo w]) = words.flatMap be16 :=
  congrArg words.flatMap (funext be16_hi_lo).symm

end Sys2Proof.Machine
end

section
/-! ## The statements of the frame-decode family -/

namespace Sys2Proof.Machine

open Sys2Proof.Claims

/-- Settles O55: from the empty buffer, the rest of the frame is the whole frame. -/
theorem frameBytesDecodeAsTheWholeFrame : Obligations.FrameBytesDecodeAsTheWholeFrame := by
  intro i f s ts rest hw he hd hbuf hts hb
  have hi : decodeResponse f = .ok i := by
    have roundTrip := decodeOfEncodeIsTheInstruction i hw
    rwa [he] at roundTrip
  have nonempty : f ≠ [] := by
    rintro rfl
    cases hi
  have hrun := run_rest_of_frame nonempty (by rw [hd, hbuf]; rfl) (by rw [hbuf]; exact hi) hts hb
  rwa [hbuf] at hrun

/-- Settles O17: soundness gives the bounds, and every step keeps it. -/
theorem receiveBufferIsBounded : Obligations.ReceiveBufferIsBounded :=
  ⟨fun _ hs => bufferBounded_of_rxSound hs.rx, fun _ _ hs h => bufferBounded_of_rxSound (step_keeps_rxSound hs.rx h)⟩

/-- Settles O23, by the cases of a step. -/
theorem partialFramesAreNotConsumed : Obligations.PartialFramesAreNotConsumed := by
  intro s t h
  cases step_cases h with
  | command ts i rest hts hd hx =>
    by_cases hi : i = .linkLost
    · subst hi
      obtain rfl := Host.Outcome.next.inj hx
      exact .inr (.inr ⟨rfl, .inr (.inr (.inl ⟨ts, rest, hts, hd⟩))⟩)
    · obtain ⟨-, -, -, kept⟩ := command_leaves_receiver (decodeCmd_port hd) hx
      exact .inl (kept hi).1
  | completed ts b rest i hts hb _ hd hx =>
    obtain ⟨-, -, -, emptied, -⟩ := response_writes (decodeResponse_port hd) hx
    exact .inr (.inr ⟨emptied, .inl ⟨ts, b, rest, i, hts, hb, hd⟩⟩)
  | kept ts b rest hts hb | accepted ts b rest hts hb => subst t; exact .inr (.inl ⟨ts, b, rest, hts, hb, rfl⟩)
  | discarded ts b rest hts => subst t; exact .inr (.inr ⟨rfl, .inr (.inl ⟨ts, hts, rfl⟩)⟩)
  | reset ts hts => subst t; exact .inr (.inr ⟨rfl, .inr (.inr (.inr ⟨ts, hts⟩))⟩)
  | idle | noCommand | illegal | noByte => subst t; exact .inl rfl

/-- Settles O49: RXBUF with the new byte is the header that R123 checks. -/
theorem headerIsCheckedAtTheEighthByte : Obligations.HeaderIsCheckedAtTheEighthByte := by
  intro s ts t1 t0 p1 p0 l1 l0 u f rest hts hb hd hbuf
  have held : (received s ts f rest).rxBuf = [t1, t0, p1, p0, l1, l0, u, f] := congrArg (· ++ [f]) hbuf
  rw [← headerOK_iff_headerPasses, step, fetch_awaitHeader hts hb hd]
  constructor
  · intro ok
    rw [receiveHeader_of_accepted held ok]
  · intro bad
    rw [receiveHeader_of_refused held (Bool.eq_false_iff.mpr bad)]
    rfl

/-- Settles O50: RXBUF with the new byte ends in the byte count that R125 checks, and a frame with data has bytes to come. -/
theorem byteCountIsCheckedAtTheNinthByte : Obligations.ByteCountIsCheckedAtTheNinthByte := by
  intro s ts t1 t0 p1 p0 l1 l0 u bc rest hts hb hd hbuf
  have held : (received s ts bc rest).rxBuf = [t1, t0, p1, p0, l1, l0, u, 0x03, bc] := congrArg (· ++ [bc]) hbuf
  have check : byteCountWrong 0x03 (u16be l1 l0).toNat [bc] = false ↔ be l1 l0 = 3 + bc.toNat := by
    simp [byteCountWrong_singleton_eq_false_iff, toNat_u16be, be]
  rw [step, fetch_awaitBody hts hb hd]
  constructor
  · intro wrong
    rw [receiveBody_of_wrong_count held (Bool.of_not_eq_false (mt check.mp wrong))]
    rfl
  · intro right data
    have short : (received s ts bc rest).rxBuf.length ≠ 6 + (u16be l1 l0).toNat := by
      rw [held, toNat_u16be, ← be, right]
      simp only [List.length_cons, List.length_nil]
      omega
    rw [receiveBody_of_partial held (check.mpr right) short]

/-- Settles O60: the byte is not one that R125 checks, and the frame is not complete. -/
theorem bodyBytesAreOnlyBuffered : Obligations.BodyBytesAreOnlyBuffered := by
  intro s ts b t1 t0 p1 p0 l1 l0 u f body rest hts hb hd hbuf notNinth notLast
  have right : byteCountWrong f (u16be l1 l0).toNat body = false :=
    byteCountWrong_eq_false_of_not_ninth (by simpa [hbuf] using notNinth)
  have short : (received s ts b rest).rxBuf.length ≠ 6 + (u16be l1 l0).toNat := by
    rw [toNat_u16be]
    exact notLast
  rw [step, fetch_awaitBody hts hb hd, receiveBody_of_partial hbuf right short]

/-- Settles O51: `findTid` finds the entry or none, and a completion carries its entry's transaction ID. -/
theorem responsesMatchByTransactionId : Obligations.ResponsesMatchByTransactionId := by
  intro s i tid hi
  obtain ⟨unit, r, hx⟩ := exec_of_responseTid hi
  refine ⟨exec_of_unmatched hx, ?_⟩
  rintro e he distinct rfl
  obtain ⟨htid, -⟩ := resolve_context e unit r
  exact ⟨_, htid, exec_of_matched hx distinct he⟩

/-- Settles O52: the completion is `resolve_read`'s, and a sound entry's view has the words it needs. -/
theorem readResponseCompletesItsEntry : Obligations.ReadResponseCompletesItsEntry := by
  intro s e unit data distinct he
  rw [exec_of_matched (i := .rspReadHolding e.tid unit data) (fun _ => rfl) distinct he]
  refine ⟨?_, ?_, ?_, ?_⟩
  · intro hu
    rw [resolve_of_other_unit hu]
    rfl
  · rintro rfl hfc
    rw [resolve_read, if_pos hfc]
  · rintro rfl hfc hlen
    rw [resolve_read, if_neg (not_not_intro hfc), if_pos hlen]
  · rintro words rfl hfc hsound hwords rfl
    simp only [Entry.sound, Bool.and_eq_true] at hsound
    obtain ⟨⟨-, hview⟩, -⟩ := hsound
    have hlen : (words.flatMap be16).length = 2 * e.count.toNat := by rw [flatMap_be16_length, hwords]
    rw [flatMap_hi_lo, resolve_read, if_neg (not_not_intro hfc), if_neg (not_not_intro hlen), wordsOf_flatMap_be16,
      viewValue_eq_typedValue (by rwa [hwords])]

/-- Settles O53: the completion is `resolve_write`'s. -/
theorem writeResponseCompletesItsEntry : Obligations.WriteResponseCompletesItsEntry := by
  intro s e unit ea ec distinct he
  rw [exec_of_matched (i := .rspWriteMultiple e.tid unit ea ec) (fun _ => rfl) distinct he]
  refine ⟨?_, ?_, ?_, ?_⟩
  · intro hu
    rw [resolve_of_other_unit hu]
    rfl
  · rintro rfl hfc
    rw [resolve_write, if_pos hfc]
  · rintro rfl hfc hec
    rw [resolve_write, if_neg (not_not_intro hfc), if_pos hec]
  · rintro rfl hfc hec
    rw [resolve_write, if_neg (not_not_intro hfc), if_neg (not_not_intro hec)]

/-- Settles O54: the completion is `resolve_exception`'s. -/
theorem exceptionResponseCompletesItsEntry : Obligations.ExceptionResponseCompletesItsEntry := by
  intro s e unit fc7 x distinct he
  rw [exec_of_matched (i := .rspException e.tid unit fc7 x) (fun _ => rfl) distinct he]
  refine ⟨?_, ?_, ?_⟩
  · intro hu
    rw [resolve_of_other_unit hu]
    rfl
  · rintro rfl hfc
    rw [resolve_exception, if_pos hfc]
  · rintro rfl hfc
    rw [resolve_exception, if_neg (not_not_intro hfc)]

/-- Settles O10: the completed frame's bytes are RXBUF and the new byte. -/
theorem stepRunsTheCompletedFrame : Obligations.StepRunsTheCompletedFrame := fun _ _ _ _ _ hts hb hd hi =>
  step_of_completed hts hb hd hi

/-- Settles O48: the header branch waits until it has 8 bytes. -/
theorem headerBytesAreOnlyBuffered : Obligations.HeaderBytesAreOnlyBuffered := by
  intro s ts b rest hts hb hd hlen
  have short : (received s ts b rest).rxBuf.length < 8 := by simpa [received] using hlen
  rw [step, fetch_awaitHeader hts hb hd, receiveHeader_of_short short]

end Sys2Proof.Machine
end

section
/-! SUPPORT. The register codec family (spec/43_register_codec.md): the Int32 patterns as the library's signed reading, the codec
commands' answers in the statements' own terms, and the statements settled from these. -/

namespace Sys2Proof.Machine

open Sys2Proof.Claims

/-! ## The 32-bit views (R150) -/

/-- The three 32-bit views read two words alike. -/
theorem viewValue_of_wide {view : View} (wide : view ∈ [View.u32, .i32, .f32]) (h l : Half) :
    viewValue view [h, l] = compose32 h l := by
  simp only [List.mem_cons, List.not_mem_nil, or_false] at wide
  rcases wide with rfl | rfl | rfl
  · exact viewValue_u32 h l
  · exact viewValue_i32 h l
  · exact viewValue_f32 h l

/-- R150, as the number that the statements write. -/
theorem compose32_eq_ofNat (h l : Half) : compose32 h l = BitVec.ofNat 32 (65536 * h.toNat + l.toNat) := by
  rw [← compose32_toNat, BitVec.ofNat_toNat, BitVec.setWidth_eq]

/-! ## Int32 patterns (R153) -/

/-- The reading of a pattern is the library's signed value of a bit vector. -/
theorem int32Of_eq_toInt (v : Word) : int32Of v = v.toInt := (BitVec.toInt_eq_msb_cond v).symm

/-- Writing an Int32 is the library's bit vector of an integer. -/
theorem patternOfInt32_eq_ofInt (i : Int) : patternOfInt32 i = BitVec.ofInt 32 i := by
  apply BitVec.eq_of_toNat_eq
  rw [patternOfInt32, BitVec.toNat_ofNat, BitVec.toNat_ofInt]
  push_cast
  omega

/-! ## The codec commands' answers (R170 to R177) -/

/-- The word count is the view's. -/
theorem State.composeResult_of_length_eq {ws : List Half} {n : Nat} (hlen : ws.length = n) (s : State) (view : View) :
    s.composeResult view n ws = answer s { status := .ok, tid := 0, value := viewValue view ws, words := [] } :=
  if_neg (not_not_intro hlen)

/-- Another word count fails. -/
theorem State.composeResult_of_length_ne {ws : List Half} {n : Nat} (hlen : ws.length ≠ n) (s : State) (view : View) :
    s.composeResult view n ws = answer s (failed .unexpectedRegisterCount) := if_pos hlen

theorem exec_composeU16 (ws : List Half) (s : State) : exec (.composeU16 ws) s = .next (s.composeResult .u16 1 ws) := rfl

/-- The three COMPOSE commands of two words differ in their view only. -/
theorem exec_of_wide_compose {i : Instr} {ws : List Half} (hi : i ∈ [Instr.composeU32 ws, .composeI32 ws, .composeF32 ws])
    (s : State) : ∃ view ∈ [View.u32, .i32, .f32], exec i s = .next (s.composeResult view 2 ws) := by
  simp only [List.mem_cons, List.not_mem_nil, or_false] at hi
  rcases hi with rfl | rfl | rfl
  · exact ⟨.u32, by decide, rfl⟩
  · exact ⟨.i32, by decide, rfl⟩
  · exact ⟨.f32, by decide, rfl⟩

/-- The three DECOMPOSE commands of a 32-bit pattern do the same. -/
theorem exec_of_wide_decompose {i : Instr} {v : Word} (hi : i ∈ [Instr.decomposeU32 v, .decomposeI32 v, .decomposeF32 v])
    (s : State) : exec i s = .next (s.result { status := .ok, words := decompose32 v }) := by
  simp only [List.mem_cons, List.not_mem_nil, or_false] at hi
  rcases hi with rfl | rfl | rfl <;> rfl

end Sys2Proof.Machine
end

section
/-! ## The statements of the register codec family -/

namespace Sys2Proof.Machine

open Sys2Proof.Claims

/-- Settles O40: the 32-bit views are `compose32`, and the halves of a word and the append of two halves undo each other. -/
theorem codecRoundTrips : Obligations.CodecRoundTrips := by
  constructor
  · intro view v wide
    rw [decompose32_eq, viewValue_of_wide wide, compose_decompose]
  · intro view w0 w1 wide
    rw [viewValue_of_wide wide, decompose_compose]

/-- Settles O42: reading is the library's `toInt` and writing its `ofInt`. -/
theorem int32PatternsAreTwosComplement : Obligations.Int32PatternsAreTwosComplement := by
  refine ⟨fun v => ?_, fun v => ?_, fun i hlow hhigh => ?_⟩
  · have half : 2 * v.toNat < 2 ^ 32 ↔ v.toNat < 2 ^ 31 := by omega
    rw [int32Of_eq_toInt, BitVec.toInt_eq_toNat_cond, if_congr half rfl rfl]
    rfl
  · rw [int32Of_eq_toInt, patternOfInt32_eq_ofInt, BitVec.ofInt_toInt]
  · rw [patternOfInt32_eq_ofInt, int32Of_eq_toInt]
    exact BitVec.toInt_ofInt_eq_self (by decide) hlow hhigh

/-- Settles O38: by the word count, `composeResult` answers the view's value or fails. -/
theorem composeCommandsAnswer : Obligations.ComposeCommandsAnswer := by
  refine ⟨fun s w => ?_, fun s i h l hi => ?_, fun s ws hlen => ?_, fun s i ws hlen hi => ?_⟩
  · rw [exec_composeU16, State.composeResult_of_length_eq List.length_singleton, viewValue_u16, BitVec.ofNat_toNat]
  · obtain ⟨view, wide, hx⟩ := exec_of_wide_compose hi s
    rw [hx, State.composeResult_of_length_eq (List.length_eq_two.mpr ⟨h, l, rfl⟩), viewValue_of_wide wide, compose32_eq_ofNat]
  · rw [exec_composeU16, State.composeResult_of_length_ne hlen]
  · obtain ⟨view, -, hx⟩ := exec_of_wide_compose hi s
    rw [hx, State.composeResult_of_length_ne hlen]

/-- Settles O39: `decompose32` is the quotient and the remainder by 2^16. -/
theorem decomposeCommandsAnswer : Obligations.DecomposeCommandsAnswer := by
  refine ⟨fun s v => rfl, fun s i v hi => ?_⟩
  rw [exec_of_wide_decompose hi, decompose32_eq_twoWords]
  rfl

/-- Settles O41: `compose32` is the shift form, and its value is a sum. -/
theorem viewValuesAsWritten : Obligations.ViewValuesAsWritten := by
  refine ⟨viewValue_raw, fun w => ?_, fun view w0 w1 wide => ?_⟩
  · rw [viewValue_u16, BitVec.toNat_setWidth_of_le (by decide)]
  · rw [viewValue_of_wide wide]
    exact ⟨rfl, compose32_toNat w0 w1⟩

end Sys2Proof.Machine
end

section
/-! SUPPORT. The control family (spec/44_control.md): a control command is read from its one word, and the value of every CSR in
arithmetic. -/

/-! ## A command of one word, from its word (R71, R79) -/

namespace Sys2Proof

theorem opcodeOf_opField {w : Word} {o : Opcode} (h : w.extractLsb' 24 8 = o.op) : opcodeOf (opField w) = some o := by
  rw [opField, h, opcodeOf_op]

/-- Bits [23:0] are SUB and ARG (R70). -/
theorem low24_eq_zero_iff (w : Word) : w.extractLsb' 0 24 = 0 ↔ subField w = 0 ∧ argField w = 0 := by
  simp only [subField, argField, ← BitVec.toNat_inj, BitVec.extractLsb'_toNat, BitVec.ofNat_eq_ofNat, BitVec.toNat_ofNat,
    Nat.shiftRight_eq_div_pow]
  omega

end Sys2Proof

namespace Sys2Proof.Machine

open Sys2Proof.Claims

/-- A command without operand words is taken with its one word: it runs if the fields that its format marks 0 are 0, and is
illegal otherwise. -/
theorem step_of_one_word {s : State} {ts : List Turn} {w : Word} {rest : List Word} {o : Opcode} {i : Instr} {P : Prop}
    [Decidable P] (hts : s.turns = .cmd :: ts) (hin : s.cmdIn = w :: rest) (ho : w.extractLsb' 24 8 = o.op)
    (noOperands : operandCount o (subField w) rest = some 0)
    (reads : decodeOperands o (subField w) (argField w) [] = if P then some i else none) :
    step s = if P then exec i (taken s ts rest) else .next (answer (taken s ts rest) (failed .illegalCommand)) := by
  by_cases hP : P
  · rw [if_pos hP] at reads ⊢
    have hd : decodeCmd s.cmdIn = .instr i rest := by
      simp [hin, decodeCmd, opcodeOf_opField ho, noOperands, reads]
    exact stepRunsTheDecodedCommand s ts i rest hts hd
  · rw [if_neg hP] at reads ⊢
    have hd : decodeCmd (w :: rest) = .illegal .reservedField rest := by
      simp [decodeCmd, opcodeOf_opField ho, noOperands, reads]
    exact step_of_illegal hts hin hd

end Sys2Proof.Machine
end

section
/-! ## The values of the CSRs (R33) -/

namespace Sys2Proof.Machine

open Sys2Proof.Claims

/-- A concatenation, in arithmetic. -/
theorem toNat_append_eq_add {m n : Nat} (x : BitVec m) (y : BitVec n) : (x ++ y).toNat = 2 ^ n * x.toNat + y.toNat := by
  rw [BitVec.toNat_append, ← Nat.shiftLeft_add_eq_or_of_lt y.isLt, Nat.shiftLeft_eq, Nat.mul_comm]

@[simp] theorem DecState.code_toNat (d : DecState) : d.code.toNat = decNumber d := by cases d <;> rfl

theorem eq_ofNat_of_toNat_eq {v : Word} {n : Nat} (h : v.toNat = n) : v = BitVec.ofNat 32 n := by
  rw [← h, BitVec.ofNat_toNat, BitVec.setWidth_eq]

/-- Each implemented CSR, for lengths that fit their fields (log 14). -/
theorem State.csr_of_le {s : State} {c : Byte} (buffer : s.rxBuf.length ≤ 260) (table : s.pend.length ≤ 65536)
    (hc : c.toNat ≤ 0x08) : s.csr c = some (BitVec.ofNat 32 (csrValue s c.toNat)) := by
  unfold State.csr
  generalize c.toNat = n at hc
  interval_cases n <;> refine congrArg some (eq_ofNat_of_toNat_eq ?_)
  · rw [toNat_append_eq_add]; simp [csrValue]
  · rw [toNat_append_eq_add, toNat_append_eq_add]; simp [csrValue]; omega
  · rw [toNat_append_eq_add, toNat_append_eq_add, toNat_append_eq_add]; simp [csrValue]; omega
  · rw [toNat_append_eq_add]; simp [csrValue]; omega
  iterate 4 · rfl
  · rw [toNat_append_eq_add, toNat_append_eq_add]
    simp [csrValue, Config.maxPending, Config.maxWrite, Config.maxRead]
    omega

/-- The other numbers are not implemented. -/
theorem State.csr_of_gt (s : State) {c : Byte} (hc : 0x08 < c.toNat) : s.csr c = none := by
  unfold State.csr
  split
  case h_10 => rfl
  all_goals omega

theorem exec_csrRead_of_some {s : State} {c : Byte} {v : Word} (h : s.csr c = some v) :
    exec (.csrRead c) s = .next (answer s { status := .ok, value := v }) := by
  simp only [exec, execCsrRead, h]
  rfl

theorem exec_csrRead_of_none {s : State} {c : Byte} (h : s.csr c = none) :
    exec (.csrRead c) s = .next (answer s (failed .illegalCommand)) := by
  simp only [exec, execCsrRead, h]
  rfl

end Sys2Proof.Machine
end

section
/-! ## EXPIRE, by what the table holds (R183) -/

namespace Sys2Proof.Machine

open Sys2Proof.Claims

theorem exec_expire_of_pending {s : State} {tid : Half} {e : Entry} (h : findTid tid s.pend = some e) :
    exec (.expire tid) s =
      .next (({ s with pend := removeTid tid s.pend }.complete (failRecord e .timeout)).result
        { status := .ok, tid := tid }) := by
  simp only [exec, execExpire, h]

theorem exec_expire_of_absent {s : State} {tid : Half} (h : findTid tid s.pend = none) :
    exec (.expire tid) s = .next (answer s (failed .noEntry)) := by
  simp only [exec, execExpire, h]
  rfl

end Sys2Proof.Machine
end

section
/-! ## The statements of the control family -/

namespace Sys2Proof.Machine

open Sys2Proof.Claims

/-- Settles O43: format U marks ARG as 0. -/
theorem setUnitSetsTheUnit : Obligations.SetUnitSetsTheUnit := by
  refine ⟨fun _ _ => rfl, fun s ts w rest hts hin hop => ?_⟩
  rw [step_of_one_word (o := .setUnit) hts hin hop rfl rfl, apply_ite Host.Outcome.next]
  rfl

/-- Settles O44: format N marks SUB and ARG, bits [23:0], as 0. -/
theorem resetCountersClearsTheByteCounters : Obligations.ResetCountersClearsTheByteCounters := by
  refine ⟨fun _ => rfl, fun s ts w rest hts hin hop => ?_⟩
  rw [step_of_one_word (o := .resetCounters) hts hin hop rfl rfl, apply_ite Host.Outcome.next]
  exact if_congr (low24_eq_zero_iff w).symm rfl rfl

/-- Settles O45, by the two ranges of CSR numbers. -/
theorem csrReadAnswersTheRegister : Obligations.CsrReadAnswersTheRegister := by
  intro s buffer table
  refine ⟨fun c hc => ?_, fun c hc => ?_, fun ts w rest hts hin hop => ?_⟩
  · exact exec_csrRead_of_some (State.csr_of_le buffer table hc)
  · exact exec_csrRead_of_none (s.csr_of_gt hc)
  · exact step_of_one_word (o := .csrRead) hts hin hop rfl rfl

/-- Settles O46: with distinct transaction IDs the entry found is the given one, and removing it leaves the others. -/
theorem expireCompletesWithTimeout : Obligations.ExpireCompletesWithTimeout := by
  refine ⟨fun s e distinct he => ?_, fun s tid absent => ?_, fun s ts w rest hts hin hop => ?_⟩
  · rw [exec_expire_of_pending (findTid_of_mem distinct he rfl), removeTid_eq_filter distinct]
    simp [State.put, others, record, failRecord]
  · exact exec_expire_of_absent (findTid_eq_none.mpr absent)
  · exact step_of_one_word (o := .expire) hts hin hop rfl rfl

/-- Settles O47: LINK_LOST is R184's, and format N marks bits [23:0] as 0. -/
theorem linkLostFailsEveryEntry : Obligations.LinkLostFailsEveryEntry := by
  refine ⟨fun _ => rfl, fun s ts w rest hts hin hop => ?_⟩
  rw [step_of_one_word (o := .linkLost) hts hin hop rfl rfl]
  exact if_congr (low24_eq_zero_iff w).symm rfl rfl

end Sys2Proof.Machine
end

section
/-! SUPPORT. The exceptions family (spec/60_exceptions.md): how a step settles the entries of the pending table, and what a
failed command answers. -/

/-! ## One step settles entries: some completed, the others kept, one inserted for each frame sent (R207) -/

namespace Sys2Proof.Machine

open Sys2Proof.Claims

theorem frameCount_of_entries (f : Entry → Completion) (pend : List Entry) :
    frameCount (pend.map (fun e => Output.cpl (f e))) = 0 := by
  simp [frameCount]

@[simp] theorem frameCount_append (a b : List Output) : frameCount (a ++ b) = frameCount a + frameCount b := by
  simp [frameCount]

/-- A way to complete entries that gives each one a completion of its own, with its context (R81). -/
def KeepsContext (complete : Entry → Completion) : Prop :=
  ∀ e, (complete e).tid = e.tid ∧ (complete e).unit = e.unit ∧ (complete e).fc = e.fc ∧ (complete e).view = e.view ∧
    (complete e).addr = e.addr ∧ (complete e).count = e.count

theorem KeepsContext.tid {complete : Entry → Completion} (h : KeepsContext complete) (e : Entry) :
    (complete e).tid = e.tid := (h e).1

theorem failRecord_keepsContext (st : Status) : KeepsContext (fun e => failRecord e st) := fun _ =>
  ⟨rfl, rfl, rfl, rfl, rfl, rfl⟩

theorem resolve_keepsContext (unit : Byte) (r : Response) : KeepsContext (fun e => resolve e unit r) := fun e =>
  resolve_context e unit r

/-- From `s` to `t` the entries `gone` are completed, each once, the entries `kept` stay, and each frame sent inserts one of
`fresh`. -/
structure SettlesWith (s t : State) (gone kept fresh : List Entry) (complete : Entry → Completion) (added : List Output) :
    Prop where
  context : KeepsContext complete
  split : s.pend.Perm (gone ++ kept)
  pend : t.pend = kept ++ fresh
  out : t.out = s.out ++ added
  completions : added.flatMap Output.completions = gone.map complete
  frames : frameCount added = fresh.length

/-- What R207 says of the entries, from `s` to `t`. -/
def Settles (s t : State) : Prop := ∃ gone kept fresh complete added, SettlesWith s t gone kept fresh complete added

/-- Only the table and the output log are spoken of. -/
theorem Settles.of_same {s u t : State} (h : Settles u t) (hp : u.pend = s.pend) (ho : u.out = s.out) : Settles s t := by
  obtain ⟨gone, kept, fresh, complete, added, w⟩ := h
  exact ⟨gone, kept, fresh, complete, added, w.context, hp ▸ w.split, w.pend, ho ▸ w.out, w.completions, w.frames⟩

/-- The table stays, and neither a completion nor a frame is put out. -/
theorem Settles.of_kept {s t : State} {added : List Output} (hp : t.pend = s.pend) (ho : t.out = s.out ++ added)
    (hc : added.flatMap Output.completions = []) (hf : frameCount added = 0) : Settles s t :=
  ⟨[], s.pend, [], _, added, failRecord_keepsContext .ok, .refl _, by simp [hp], ho, hc, hf⟩

/-- Removing the entry that `findTid` gives leaves the table without it (log 12). -/
theorem perm_cons_removeTid {tid : Half} {pend : List Entry} {e : Entry} (h : findTid tid pend = some e) :
    pend.Perm (e :: removeTid tid pend) := by
  obtain ⟨htid, before, after, rfl, hbefore⟩ := List.find?_eq_some_iff_append.mp h
  have removed : removeTid tid (before ++ e :: after) = before ++ after := by
    rw [removeTid, List.eraseP_append_right _ fun b hb => by simpa using hbefore b hb,
      List.eraseP_cons_of_pos (p := fun x : Entry => x.tid == tid) htid]
  rw [removed]
  exact List.perm_middle

/-- An admission completes the entry it evicts, if there is one, and sends one frame and inserts one entry (R100, R102). -/
theorem admitted_settles {i : Instr} {r : Request} (hr : requestOf i = some r) (s : State) :
    Settles s (s.admitted r.fc r.addr r.n r.view r.values) := by
  rw [State.admitted_eq_afterAdmission hr]
  have context := failRecord_keepsContext .timeout
  cases hf : findTid s.nextTid s.pend with
  | none =>
    rw [State.evictions_of_fresh hf, removeTid_of_absent hf]
    exact ⟨[], s.pend, [entryOf s r], _, _, context, .refl _, rfl, List.append_assoc _ _ _, rfl, rfl⟩
  | some e =>
    rw [State.evictions_of_reused hf]
    exact ⟨[e], _, [entryOf s r], _, _, context, perm_cons_removeTid hf, rfl, List.append_assoc _ _ _, rfl, rfl⟩

/-- R207, for every instruction but the request rows, which send a frame and nothing else. -/
theorem exec_settles {i : Instr} {s t : State} (hp : i.port ≠ .tx) (h : exec i s = .next t) : Settles s t := by
  rcases exec_cases h with ⟨r, -, -, rfl⟩ | ⟨fc, a, n, v, vs, ha, -, -, -, rfl⟩ | ⟨u, -, rfl⟩ | ⟨-, rfl⟩ |
    ⟨tid, e, -, hf, rfl⟩ | ⟨-, rfl⟩ | ⟨f, htx, -⟩ | ⟨tid, -, -, rfl⟩ | ⟨tid, e, u, r, -, hf, rfl⟩
  · exact .of_kept rfl rfl rfl rfl
  · exact admitted_settles (requestOf_eq_some_iff.mpr ha) s
  · exact .of_kept rfl rfl rfl rfl
  · exact .of_kept rfl rfl rfl rfl
  · exact ⟨[e], _, [], _, _, failRecord_keepsContext .timeout, perm_cons_removeTid hf, (List.append_nil _).symm,
      List.append_assoc _ _ _, rfl, rfl⟩
  · exact ⟨s.pend, [], [], _, _, failRecord_keepsContext .connectionLost, by simp, rfl, List.append_assoc _ _ _, by simp,
      by rw [frameCount_append, frameCount_of_entries]; rfl⟩
  · exact absurd htx hp
  · exact .of_kept rfl (List.append_nil _).symm rfl rfl
  · exact ⟨[e], _, [], _, _, resolve_keepsContext u r, perm_cons_removeTid hf, (List.append_nil _).symm, rfl, rfl, rfl⟩

/-- R207, for every step but reset. -/
theorem step_settles {s t : State} (noReset : ∀ ts, s.turns ≠ .reset :: ts) (h : step s = .next t) : Settles s t := by
  cases step_cases h with
  | command ts i rest _ hd hx => exact (exec_settles (by simp [decodeCmd_port hd]) hx).of_same rfl rfl
  | completed ts b rest i _ _ _ hd hx => exact (exec_settles (by simp [decodeResponse_port hd]) hx).of_same rfl rfl
  | reset ts hts => exact absurd hts (noReset ts)
  | illegal => subst t; exact .of_kept rfl rfl rfl rfl
  | idle | noCommand | noByte | kept | accepted | discarded => subst t; exact .of_kept rfl (List.append_nil _).symm rfl rfl

section settled

variable {s t : State} {gone kept fresh : List Entry} {complete : Entry → Completion} {added : List Output}

theorem SettlesWith.cpl_eq (w : SettlesWith s t gone kept fresh complete added) : t.cpl = s.cpl ++ gone.map complete := by
  rw [State.cpl, w.out, List.flatMap_append, w.completions]
  rfl

/-- With distinct transaction IDs, so are those of the completed entries, and no kept entry shares one. -/
theorem SettlesWith.distinct_parts (w : SettlesWith s t gone kept fresh complete added) (distinct : Distinct s) :
    (gone.map Entry.tid).Nodup ∧ ∀ g ∈ gone, ∀ e ∈ kept, g.tid ≠ e.tid := by
  have nd := (w.split.map Entry.tid).nodup_iff.mp distinct
  rw [List.map_append, List.nodup_append] at nd
  obtain ⟨nd, -, apart⟩ := nd
  exact ⟨nd, fun g hg e he => apart _ (List.mem_map_of_mem hg) _ (List.mem_map_of_mem he)⟩

/-- No completion has a kept entry's transaction ID. -/
theorem SettlesWith.tid_ne_of_kept (w : SettlesWith s t gone kept fresh complete added) (distinct : Distinct s) {e : Entry}
    (he : e ∈ kept) : ∀ k ∈ gone.map complete, k.tid ≠ e.tid := by
  obtain ⟨-, apart⟩ := w.distinct_parts distinct
  intro k hk
  obtain ⟨g, hg, rfl⟩ := List.mem_map.mp hk
  rw [w.context.tid g]
  exact apart g hg e he

/-- One completion has a completed entry's transaction ID: its own. -/
theorem SettlesWith.filter_completions (w : SettlesWith s t gone kept fresh complete added) (distinct : Distinct s) {e : Entry}
    (he : e ∈ gone) : (gone.map complete).filter (fun k => k.tid == e.tid) = [complete e] := by
  obtain ⟨nd, -⟩ := w.distinct_parts distinct
  have sameTid : (fun k : Completion => k.tid == e.tid) ∘ complete = fun x => x.tid == e.tid :=
    funext fun x => congrArg (· == e.tid) (w.context.tid x)
  rw [List.filter_map, sameTid, filter_tid_eq nd he, List.map_singleton]

end settled

end Sys2Proof.Machine
end

section
/-! ## What a command's result shows of it (R203, R205) -/

namespace Sys2Proof.Machine

open Sys2Proof.Claims

/-- R203, R205: a command answers a status of its row and does nothing else, or it answers OK. -/
def Answers (i : Instr) (s t : State) : Prop :=
  (∃ st ∈ resultStatuses i, t = answer s (failed st)) ∨ ∃ r, r.status = .ok ∧ t.res = s.res ++ [r]

/-- The counts of the typed commands, 1 and 2, are admitted: only ENC_READ and ENC_WRITE can overflow (R160 to R167). -/
theorem dataOverflow_listed {i : Instr} {r : Request} (hr : requestOf i = some r) (hc : ¬ CountAdmitted r) :
    .dataOverflow ∈ resultStatuses i := by
  cases i <;> cases hr
  case encRead | encWrite => simp [resultStatuses]
  all_goals exact absurd (by simp [CountAdmitted]) hc

/-- The answers of `Admit` (R100, R204). -/
theorem encode_answers {i : Instr} {r : Request} {s t : State} (hr : requestOf i = some r) (h : exec i s = .next t) :
    Answers i s t := by
  obtain ⟨unitListed, fullListed⟩ : .deviceIDNotSet ∈ resultStatuses i ∧ .pendingFull ∈ resultStatuses i := by
    cases i <;> cases hr <;> simp [resultStatuses]
  have next : ∀ {u}, exec i s = .next u → t = u := fun hu => Host.Outcome.next.inj (h.symm.trans hu)
  by_cases hv : s.unit.valid = true
  · by_cases hc : CountAdmitted r
    · by_cases full : findTid s.nextTid s.pend = none ∧ s.pend.length = s.cfg.maxPending
      · exact .inl ⟨_, fullListed, next (exec_of_table_full hr hv hc full)⟩
      · rw [next (exec_of_admission hr hv hc full)]
        exact .inr ⟨_, rfl, afterAdmission_res s r _⟩
    · exact .inl ⟨_, dataOverflow_listed hr hc, next (exec_of_bad_count hr hv hc)⟩
  · exact .inl ⟨_, unitListed, next (exec_of_unit_unset hr (Bool.eq_false_iff.mpr hv))⟩

theorem compose_answers {i : Instr} {view : View} {n : Nat} {ws : List Half} {s t : State}
    (listed : .unexpectedRegisterCount ∈ resultStatuses i) (ht : t = s.composeResult view n ws) : Answers i s t := by
  subst ht
  by_cases hlen : ws.length = n
  · rw [State.composeResult_of_length_eq hlen]
    exact .inr ⟨_, rfl, State.put_res s _⟩
  · exact .inl ⟨_, listed, State.composeResult_of_length_ne hlen s view⟩

theorem csrRead_answers {c : Byte} {s t : State} (h : exec (.csrRead c) s = .next t) : Answers (.csrRead c) s t := by
  cases hc : s.csr c with
  | none =>
    rw [exec_csrRead_of_none hc] at h
    exact .inl ⟨_, by simp [resultStatuses], (Host.Outcome.next.inj h).symm⟩
  | some v =>
    rw [exec_csrRead_of_some hc] at h
    obtain rfl := Host.Outcome.next.inj h
    exact .inr ⟨_, rfl, State.put_res s _⟩

theorem expire_answers {tid : Half} {s t : State} (h : exec (.expire tid) s = .next t) : Answers (.expire tid) s t := by
  cases hf : findTid tid s.pend with
  | none =>
    rw [exec_expire_of_absent hf] at h
    exact .inl ⟨_, by simp [resultStatuses], (Host.Outcome.next.inj h).symm⟩
  | some e =>
    rw [exec_expire_of_pending hf] at h
    obtain rfl := Host.Outcome.next.inj h
    exact .inr ⟨{ status := .ok, tid := tid }, rfl, by simp [State.res]⟩

/-- R203, for every command. -/
theorem command_answers {i : Instr} {s t : State} (hp : i.port = .cmd) (h : exec i s = .next t) : Answers i s t := by
  cases i with
  | encRead | encWrite | readU16 | readU32 | readI32 | readF32 | writeU16 | writeU32 | writeI32 | writeF32 =>
    exact encode_answers rfl h
  | composeU16 | composeU32 | composeI32 | composeF32 =>
    exact compose_answers (by simp [resultStatuses]) (Host.Outcome.next.inj h).symm
  | decomposeU16 | decomposeU32 | decomposeI32 | decomposeF32 | setUnit | resetCounters =>
    obtain rfl := Host.Outcome.next.inj h
    exact .inr ⟨_, rfl, State.put_res _ _⟩
  | linkLost =>
    obtain rfl := Host.Outcome.next.inj h
    exact .inr ⟨{ status := .ok }, rfl, by simp [State.res]⟩
  | csrRead => exact csrRead_answers h
  | expire => exact expire_answers h
  | _ => cases hp

/-- Every row of R203 has OK. -/
theorem ok_listed {i : Instr} (hp : i.port = .cmd) : .ok ∈ resultStatuses i := by
  cases i <;> cases hp <;> exact List.mem_cons_self

end Sys2Proof.Machine
end

section
/-! ## The statements of the exceptions family -/

namespace Sys2Proof.Machine

open Sys2Proof.Claims

/-- Settles O20: the completed and the kept entries make up the old table, and each frame sent inserts one entry. -/
theorem completionsBalanceEntries : Obligations.CompletionsBalanceEntries := by
  intro s t noReset h
  obtain ⟨gone, kept, fresh, complete, added, w⟩ := step_settles noReset h
  have table := w.split.length_eq
  rw [w.cpl_eq, w.pend, w.out, frameCount_append, w.frames]
  simp only [List.length_append, List.length_map] at table ⊢
  omega

/-- Settles O21: in a table of distinct transaction IDs an entry is kept or completed, and no other entry's completion has its
transaction ID. -/
theorem everyEntryIsCompletedExactlyOnce : Obligations.EveryEntryIsCompletedExactlyOnce := by
  intro s t hs noReset h
  obtain ⟨gone, kept, fresh, complete, added, w⟩ := step_settles noReset h
  refine ⟨gone.map complete, w.cpl_eq, fun e he => ?_⟩
  rcases List.mem_append.mp (w.split.subset he) with completed | stays
  · obtain ⟨-, context⟩ := w.context e
    exact .inr ⟨complete e, w.filter_completions hs.distinct completed, context⟩
  · exact .inl ⟨w.pend ▸ List.mem_append_left _ stays, w.tid_ne_of_kept hs.distinct stays⟩

/-- Settles O25: a command answers OK or a failure of its row, and an illegal one IllegalCommand. -/
theorem resultStatusesAreThoseListed : Obligations.ResultStatusesAreThoseListed := by
  intro s t ts hts h
  constructor
  · intro i rest hd
    rw [stepRunsTheDecodedCommand s ts i rest hts hd] at h
    have hp := decodeCmd_port hd
    rcases command_answers hp h with ⟨st, listed, rfl⟩ | ⟨r, ok, res⟩
    · exact ⟨_, State.put_res _ _, listed⟩
    · exact ⟨r, res, ok ▸ ok_listed hp⟩
  · intro why rest hd
    have hx := step_of_illegal (ws := s.cmdIn) hts rfl hd
    obtain rfl := Host.Outcome.next.inj (h.symm.trans hx)
    exact ⟨_, State.put_res _ _, rfl⟩

/-- Settles O26: what a command answers besides OK is a failure and nothing else. -/
theorem failedCommandsChangeNothing : Obligations.FailedCommandsChangeNothing := by
  intro i s t hp h
  rcases command_answers hp h with ⟨st, -, rfl⟩ | ⟨r, ok, res⟩
  · exact ⟨_, State.put_res s _, fun _ => rfl⟩
  · exact ⟨r, res, fun failed => absurd ok failed⟩

/-- Settles O57: the eleven codes one by one, and no other code has an arm of its own. -/
theorem exceptionCodesMapInOrder : Obligations.ExceptionCodesMapInOrder := by
  refine ⟨fun x hlow hhigh => ?_, fun x hx => ?_, rfl⟩
  · apply BitVec.eq_of_toNat_eq
    unfold excKind
    generalize x.toNat = n at hlow hhigh
    interval_cases n <;> rfl
  · have outside : x.toNat = 0 ∨ 0x0C ≤ x.toNat := hx.imp_left fun h => by rw [h]; rfl
    unfold excKind
    split
    case h_12 => rfl
    all_goals omega

end Sys2Proof.Machine
end

section
/-! SUPPORT. The reset and hazards family (spec/70_reset_and_hazards.md): what the reset event's turn does, a timeout racing a
response, and the statements settled from that. -/

namespace Sys2Proof.Machine

open Sys2Proof.Claims

/-! ## Turns that take no command and no byte (R230, log 3) -/

theorem step_of_no_turn {s : State} (hts : s.turns = []) : step s = .next s := by
  rw [step, fetch_nil s hts]

theorem step_of_reset {s : State} {ts : List Turn} (hts : s.turns = .reset :: ts) :
    step s = .next { s with turns := ts }.resetEvent := by
  rw [step, fetch_reset s ts hts]

/-! ## Timeout against response (R234) -/

/-- A transaction ID whose entry has been completed has no other. -/
theorem tid_ne_of_mem_others {s : State} {tid : Half} : ∀ e ∈ others s tid, e.tid ≠ tid := fun e he => by
  obtain ⟨-, ne⟩ := List.mem_filter.mp he
  exact bne_iff_ne.mp ne

section race

variable {s : State} {e : Entry} {i : Instr} (distinct : Distinct s) (he : e ∈ s.pend) (hi : responseTid i = some e.tid)

include distinct he hi

/-- The timeout is first: the response finds no entry, and is dropped. -/
theorem response_after_timeout :
    ∃ t u, exec (.expire e.tid) s = .next t ∧ exec i t = .next u ∧ u.cpl = s.cpl ++ [record e .timeout 0 0 0 0 e.wvals] ∧
      u.unmatched = s.unmatched + 1 ∧ u.pend = others s e.tid := by
  obtain ⟨expires, -, -⟩ := expireCompletesWithTimeout
  obtain ⟨unit, r, hx⟩ := exec_of_responseTid hi
  exact ⟨_, _, expires s e distinct he, exec_of_unmatched hx tid_ne_of_mem_others, by simp [dropped, State.cpl], rfl, rfl⟩

/-- The response is first: EXPIRE finds no entry, and answers NoEntry. -/
theorem timeout_after_response :
    ∃ t u k, exec i s = .next t ∧ exec (.expire e.tid) t = .next u ∧ u.cpl = s.cpl ++ [k] ∧ k.tid = e.tid ∧
      u.res = s.res ++ [failed .noEntry] ∧ u.unmatched = s.unmatched ∧ u.pend = others s e.tid := by
  obtain ⟨unit, r, hx⟩ := exec_of_responseTid hi
  obtain ⟨htid, -⟩ := resolve_context e unit r
  have gone : findTid e.tid (resolved s e.tid (resolve e unit r)).pend = none := findTid_eq_none.mpr tid_ne_of_mem_others
  exact ⟨_, _, _, exec_of_matched hx distinct he, exec_expire_of_absent gone, by simp [answer, resolved, State.cpl], htid,
    by simp [answer, resolved, State.res], rfl, rfl⟩

end race

/-! ## The statements of the reset and hazards family -/

/-- Settles O56: in either order the second of the two finds the entry gone. -/
theorem timeoutAgainstResponse : Obligations.TimeoutAgainstResponse := fun _ _ _ distinct he hi =>
  ⟨response_after_timeout distinct he hi, timeout_after_response distinct he hi⟩

/-- Settles O12: the elements of `State.resetEvent` are those of R36, and with no later turn the block waits. -/
theorem resetEventSetsEveryElement : Obligations.ResetEventSetsEveryElement := by
  intro s ts hts
  refine ⟨_, step_of_reset hts, ?_⟩
  obtain ⟨nextTid, unit, pend, rxBuf, dec, txBytes, rxBytes, frameErrors, unmatched⟩ := resetValuesOfEveryElement s.cfg
  exact ⟨nextTid, unit, pend, rxBuf, dec, txBytes, rxBytes, frameErrors, unmatched, rfl, rfl, rfl,
    fun noTurn => step_of_no_turn noTurn⟩

end Sys2Proof.Machine
end

section
/-! SUPPORT. The lines of R84 (spec/30_encoding.md): what an assembled line puts on the ports. -/

namespace Sys2Proof.Asm

open Sys2Proof.Machine

/-- A command line puts its instruction's words on the command port. -/
theorem cmdIn_of_command_line {line : String} {i : Instr} {ws : List Word} (assembled : assemble line = some (.command i))
    (encoded : encode i = .cmd ws) (s : State) :
    (assemble line).map (fun l => (l.offer s).cmdIn) = some (s.cmdIn ++ ws) := by
  simp [assembled, Line.offer, encoded]

/-- An `RX` line puts its bytes on the receive port, with one turn for each. -/
theorem rxIn_of_rx_line {line : String} {bs : List Byte} (assembled : assemble line = some (.receive bs)) (s : State) :
    (assemble line).map (fun l => ((l.offer s).rxIn, (l.offer s).turns)) = some (s.rxIn ++ bs, s.turns ++ bs.map fun _ => .rx) := by
  simp [assembled, Line.offer]

/-- Settles O8: the instruction or the bytes of each line, whose words are its encoding. -/
theorem assembledLinesGiveTheListedWords : Obligations.AssembledLinesGiveTheListedWords :=
  ⟨cmdIn_of_command_line (i := .encWrite 0x0001 [0x000A, 0x0102]) (by decide) rfl State.reset,
    cmdIn_of_command_line (i := .writeF32 1009 0x3F9E0419) (by decide) rfl State.reset,
    cmdIn_of_command_line (i := .composeU32 [0x1234, 0x5678]) (by decide) rfl State.reset,
    cmdIn_of_command_line (i := .setUnit 12) (by decide) rfl State.reset,
    rxIn_of_rx_line (bs := [0x00, 0x01, 0x83]) (by decide) State.reset⟩

end Sys2Proof.Asm
end

section
/-! SUPPORT. Turns with nothing to take, the state after reset, the status numbers, and the statements settled from that. -/

namespace Sys2Proof.Machine

open Sys2Proof.Claims

/-! ## Turns of a port that has nothing whole (log 3) -/

theorem step_of_no_byte {s : State} {ts : List Turn} (hts : s.turns = .rx :: ts) (empty : s.rxIn = []) :
    step s = .next { s with turns := ts } := by
  rw [step, fetch_rx s ts hts, State.takeByte, empty]

theorem step_of_incomplete_command {s : State} {ts : List Turn} (hts : s.turns = .cmd :: ts)
    (hd : decodeCmd s.cmdIn = .incomplete) : step s = .next { s with turns := ts } := by
  rw [step, fetch_cmd s ts hts, State.takeCommand, hd]

/-- Settles O11: no turn, no byte, no whole command. -/
theorem stepWaitsWithNothingToTake : Obligations.StepWaitsWithNothingToTake :=
  ⟨fun _ => step_of_no_turn, fun _ _ => step_of_no_byte, fun _ _ => step_of_incomplete_command⟩

/-! ## The state after reset -/

/-- Settles O14: the table is empty, and the decoder is between frames. -/
theorem resetStateIsSound : Obligations.ResetStateIsSound := fun c => by
  obtain ⟨-, -, pend, rxBuf, dec, -⟩ := resetValuesOfEveryElement c
  refine (State.sound_iff _).mpr ⟨⟨?_, ?_, ?_⟩, State.rxSound_of_empty rxBuf dec⟩ <;> simp [pend]

/-! ## The status numbers (R200) -/

theorem code_of_mem_statusNumbers : ∀ p ∈ statusNumbers, p.1.code.toNat = p.2 := by decide

theorem status_listed (st : Status) : st ∈ statusNumbers.map Prod.fst := by
  cases st <;> decide

theorem statusNumbers_distinct : (statusNumbers.map Prod.snd).Nodup := by decide

/-- Two statuses of one number have one row of the table. -/
theorem code_injective {a b : Status} (same : a.code = b.code) : a = b := by
  obtain ⟨p, hp, rfl⟩ := List.mem_map.mp (status_listed a)
  obtain ⟨q, hq, rfl⟩ := List.mem_map.mp (status_listed b)
  have number : p.2 = q.2 := by rw [← code_of_mem_statusNumbers p hp, ← code_of_mem_statusNumbers q hq, same]
  exact congrArg Prod.fst (List.inj_on_of_nodup_map statusNumbers_distinct hp hq number)

/-- Settles O58: the table lists every status with its number, and no number twice. -/
theorem statusNumbersAreTheTable : Obligations.StatusNumbersAreTheTable :=
  ⟨code_of_mem_statusNumbers, status_listed, fun _ _ => code_injective⟩

end Sys2Proof.Machine
end
